-- ==== Sys2Proof/Word.lean ====
section
/-! DEFINITION. The widths of the core's values (spec 00_scope R6, R7): everything the spec treats as bits. -/

namespace Sys2Proof

/-- A memory byte, a V register or a timer: `XLEN` = 8 bits (R6). -/
abbrev Byte := BitVec 8

/-- An instruction word, `pc`, `I` or a stack entry: `ALEN` = 16 bits (R6). -/
abbrev Word := BitVec 16

/-- One 4-bit slice of an instruction word: a register index, a row count, a key index (R7, R71). -/
abbrev Nibble := BitVec 4

/-- The 12-bit immediate address of format `ADDR` (R71). -/
abbrev Addr := BitVec 12

end Sys2Proof
end

