-- ==== Sys2Proof/Syntax.lean ====
section
/-! DEFINITION. The instruction set: one constructor per row of spec/opcode_table.json (30_encoding R75, 34 rows).
Each operand has exactly the type of its field of the word (R71, R73), so every term is an instruction of the core. -/

namespace Sys2Proof

/-- The 34 instructions of R75, in the table's order; operands as R71 names them. -/
inductive Instr where
  /-- `00E0` CLS (R150). -/
  | cls
  /-- `00EE` RET (R100). -/
  | ret
  /-- `1nnn` JP addr (R101). -/
  | jp (addr : Addr)
  /-- `2nnn` CALL addr (R102). -/
  | call (addr : Addr)
  /-- `3xkk` SE Vx, kk (R103). -/
  | seImm (x : Nibble) (kk : Byte)
  /-- `4xkk` SNE Vx, kk (R104). -/
  | sneImm (x : Nibble) (kk : Byte)
  /-- `5xy0` SE Vx, Vy (R105). -/
  | seReg (x y : Nibble)
  /-- `9xy0` SNE Vx, Vy (R106). -/
  | sneReg (x y : Nibble)
  /-- `6xkk` LD Vx, kk (R120). -/
  | ldImm (x : Nibble) (kk : Byte)
  /-- `7xkk` ADD Vx, kk (R121). -/
  | addImm (x : Nibble) (kk : Byte)
  /-- `8xy0` LD Vx, Vy (R122). -/
  | ldReg (x y : Nibble)
  /-- `8xy1` OR Vx, Vy (R123). -/
  | orReg (x y : Nibble)
  /-- `8xy2` AND Vx, Vy (R124). -/
  | andReg (x y : Nibble)
  /-- `8xy3` XOR Vx, Vy (R125). -/
  | xorReg (x y : Nibble)
  /-- `8xy4` ADD Vx, Vy (R126). -/
  | addReg (x y : Nibble)
  /-- `8xy5` SUB Vx, Vy (R127). -/
  | sub (x y : Nibble)
  /-- `8xy6` SHR Vx, Vy (R128). -/
  | shr (x y : Nibble)
  /-- `8xy7` SUBN Vx, Vy (R129). -/
  | subn (x y : Nibble)
  /-- `8xyE` SHL Vx, Vy (R130). -/
  | shl (x y : Nibble)
  /-- `Annn` LD I, addr (R140). -/
  | ldI (addr : Addr)
  /-- `Bnnn` JP V0, addr (R107). -/
  | jpV0 (addr : Addr)
  /-- `Cxkk` RND Vx, kk (R131). -/
  | rnd (x : Nibble) (kk : Byte)
  /-- `Dxyn` DRW Vx, Vy, n (R151). -/
  | drw (x y n : Nibble)
  /-- `Ex9E` SKP Vx (R160). -/
  | skp (x : Nibble)
  /-- `ExA1` SKNP Vx (R161). -/
  | sknp (x : Nibble)
  /-- `Fx07` LD Vx, DT (R163). -/
  | ldVxDt (x : Nibble)
  /-- `Fx15` LD DT, Vx (R164). -/
  | ldDtVx (x : Nibble)
  /-- `Fx18` LD ST, Vx (R165). -/
  | ldStVx (x : Nibble)
  /-- `Fx0A` LD Vx, K (R162). -/
  | ldVxK (x : Nibble)
  /-- `Fx1E` ADD I, Vx (R141). -/
  | addI (x : Nibble)
  /-- `Fx29` LD F, Vx (R142). -/
  | ldF (x : Nibble)
  /-- `Fx33` LD B, Vx (R143). -/
  | ldB (x : Nibble)
  /-- `Fx55` LD [I], Vx (R144). -/
  | stRegs (x : Nibble)
  /-- `Fx65` LD Vx, [I] (R145). -/
  | ldRegs (x : Nibble)
  deriving DecidableEq, Repr

end Sys2Proof
end

