-- ==== Sys2Proof/Decode.lean ====
section
/-! DEFINITION. Decoding an instruction word and encoding an instruction (spec 30_encoding R70 to R79, 40_step_cycle R93),
and the byte order of the fetch (20_memory R53). -/

namespace Sys2Proof

/-- Why bytes are no instruction. -/
inductive DecodeError where
  /-- The word matches no row of R75 (R77). -/
  | invalidOpcode (iw : Word)
  /-- Fewer than the two bytes of an instruction are left (R70). -/
  | truncated
  deriving DecidableEq, Repr

/-! ## Fields (R71) -/

/-- `op` = `iw[15:12]`. -/
def fieldOp (iw : Word) : Nibble := iw.extractLsb' 12 4
/-- `x` = `iw[11:8]`. -/
def fieldX (iw : Word) : Nibble := iw.extractLsb' 8 4
/-- `y` = `iw[7:4]`. -/
def fieldY (iw : Word) : Nibble := iw.extractLsb' 4 4
/-- `n` = `iw[3:0]`. -/
def fieldN (iw : Word) : Nibble := iw.extractLsb' 0 4
/-- `kk` = `iw[7:0]`. -/
def fieldKK (iw : Word) : Byte := iw.extractLsb' 0 8
/-- `addr` = `iw[11:0]`. -/
def fieldAddr (iw : Word) : Addr := iw.extractLsb' 0 12

/-! ## Decode: the family by the top nibble, then its sub-opcode (R74, R76) -/

/-- Family 0: the whole low 12 bits are compared (R76). -/
def decodeFamily0 (iw : Word) : Except DecodeError Instr :=
  if fieldAddr iw = 0x0E0 then .ok .cls
  else if fieldAddr iw = 0x0EE then .ok .ret
  else .error (.invalidOpcode iw)

/-- Families 5 and 9: `n` must be 0 (R76). -/
def decodeRegSkip (make : Nibble → Nibble → Instr) (iw : Word) : Except DecodeError Instr :=
  if fieldN iw = 0x0 then .ok (make (fieldX iw) (fieldY iw)) else .error (.invalidOpcode iw)

/-- Family 8: selected by `n` (R74, R76). -/
def decodeFamily8 (iw : Word) : Except DecodeError Instr :=
  let x := fieldX iw
  let y := fieldY iw
  if fieldN iw = 0x0 then .ok (.ldReg x y)
  else if fieldN iw = 0x1 then .ok (.orReg x y)
  else if fieldN iw = 0x2 then .ok (.andReg x y)
  else if fieldN iw = 0x3 then .ok (.xorReg x y)
  else if fieldN iw = 0x4 then .ok (.addReg x y)
  else if fieldN iw = 0x5 then .ok (.sub x y)
  else if fieldN iw = 0x6 then .ok (.shr x y)
  else if fieldN iw = 0x7 then .ok (.subn x y)
  else if fieldN iw = 0xE then .ok (.shl x y)
  else .error (.invalidOpcode iw)

/-- Family E: selected by the whole of `kk` (R74, R76). -/
def decodeFamilyE (iw : Word) : Except DecodeError Instr :=
  if fieldKK iw = 0x9E then .ok (.skp (fieldX iw))
  else if fieldKK iw = 0xA1 then .ok (.sknp (fieldX iw))
  else .error (.invalidOpcode iw)

/-- Family F: selected by the whole of `kk` (R74, R76). -/
def decodeFamilyF (iw : Word) : Except DecodeError Instr :=
  let x := fieldX iw
  if fieldKK iw = 0x07 then .ok (.ldVxDt x)
  else if fieldKK iw = 0x15 then .ok (.ldDtVx x)
  else if fieldKK iw = 0x18 then .ok (.ldStVx x)
  else if fieldKK iw = 0x0A then .ok (.ldVxK x)
  else if fieldKK iw = 0x1E then .ok (.addI x)
  else if fieldKK iw = 0x29 then .ok (.ldF x)
  else if fieldKK iw = 0x33 then .ok (.ldB x)
  else if fieldKK iw = 0x55 then .ok (.stRegs x)
  else if fieldKK iw = 0x65 then .ok (.ldRegs x)
  else .error (.invalidOpcode iw)

/-- The decoder (R74): total on words, an illegal word rejected by name (R77). It reads nothing but the word (R79, R93). -/
def decode (iw : Word) : Except DecodeError Instr :=
  if fieldOp iw = 0x0 then decodeFamily0 iw
  else if fieldOp iw = 0x1 then .ok (.jp (fieldAddr iw))
  else if fieldOp iw = 0x2 then .ok (.call (fieldAddr iw))
  else if fieldOp iw = 0x3 then .ok (.seImm (fieldX iw) (fieldKK iw))
  else if fieldOp iw = 0x4 then .ok (.sneImm (fieldX iw) (fieldKK iw))
  else if fieldOp iw = 0x5 then decodeRegSkip .seReg iw
  else if fieldOp iw = 0x6 then .ok (.ldImm (fieldX iw) (fieldKK iw))
  else if fieldOp iw = 0x7 then .ok (.addImm (fieldX iw) (fieldKK iw))
  else if fieldOp iw = 0x8 then decodeFamily8 iw
  else if fieldOp iw = 0x9 then decodeRegSkip .sneReg iw
  else if fieldOp iw = 0xA then .ok (.ldI (fieldAddr iw))
  else if fieldOp iw = 0xB then .ok (.jpV0 (fieldAddr iw))
  else if fieldOp iw = 0xC then .ok (.rnd (fieldX iw) (fieldKK iw))
  else if fieldOp iw = 0xD then .ok (.drw (fieldX iw) (fieldY iw) (fieldN iw))
  else if fieldOp iw = 0xE then decodeFamilyE iw
  else decodeFamilyF iw

/-! ## Bytes (R53): the byte at the lower address is the more significant -/

/-- `iw = {hi, lo}`. -/
def wordOfBytes (hi lo : Byte) : Word := hi ++ lo
/-- `iw[15:8]`, the byte at the lower address. -/
def highByte (iw : Word) : Byte := iw.extractLsb' 8 8
/-- `iw[7:0]`, the byte at the higher address. -/
def lowByte (iw : Word) : Byte := iw.extractLsb' 0 8

/-- Decode the first instruction of a byte sequence and return the rest. -/
def decodeBytes : List Byte → Except DecodeError (Instr × List Byte)
  | hi :: lo :: rest =>
    match decode (wordOfBytes hi lo) with
    | .ok i => .ok (i, rest)
    | .error e => .error e
  | _ => .error .truncated

/-! ## Encode: the six formats of R72 -/

/-- Format `ADDR`. -/
def formatAddr (op : Nibble) (addr : Addr) : Word := op ++ addr
/-- Format `XKK`, and format `X` with `kk` the fixed sub-opcode. -/
def formatXKK (op x : Nibble) (kk : Byte) : Word := (op ++ x : Byte) ++ kk
/-- Format `XYN`, and format `XY` with `n` the fixed sub-opcode. -/
def formatXYN (op x y n : Nibble) : Word := (op ++ x : Byte) ++ (y ++ n : Byte)

/-- The word of an instruction, from the patterns of R75. -/
def encode : Instr → Word
  | .cls => 0x00E0
  | .ret => 0x00EE
  | .jp addr => formatAddr 0x1 addr
  | .call addr => formatAddr 0x2 addr
  | .seImm x kk => formatXKK 0x3 x kk
  | .sneImm x kk => formatXKK 0x4 x kk
  | .seReg x y => formatXYN 0x5 x y 0x0
  | .sneReg x y => formatXYN 0x9 x y 0x0
  | .ldImm x kk => formatXKK 0x6 x kk
  | .addImm x kk => formatXKK 0x7 x kk
  | .ldReg x y => formatXYN 0x8 x y 0x0
  | .orReg x y => formatXYN 0x8 x y 0x1
  | .andReg x y => formatXYN 0x8 x y 0x2
  | .xorReg x y => formatXYN 0x8 x y 0x3
  | .addReg x y => formatXYN 0x8 x y 0x4
  | .sub x y => formatXYN 0x8 x y 0x5
  | .shr x y => formatXYN 0x8 x y 0x6
  | .subn x y => formatXYN 0x8 x y 0x7
  | .shl x y => formatXYN 0x8 x y 0xE
  | .ldI addr => formatAddr 0xA addr
  | .jpV0 addr => formatAddr 0xB addr
  | .rnd x kk => formatXKK 0xC x kk
  | .drw x y n => formatXYN 0xD x y n
  | .skp x => formatXKK 0xE x 0x9E
  | .sknp x => formatXKK 0xE x 0xA1
  | .ldVxDt x => formatXKK 0xF x 0x07
  | .ldDtVx x => formatXKK 0xF x 0x15
  | .ldStVx x => formatXKK 0xF x 0x18
  | .ldVxK x => formatXKK 0xF x 0x0A
  | .addI x => formatXKK 0xF x 0x1E
  | .ldF x => formatXKK 0xF x 0x29
  | .ldB x => formatXKK 0xF x 0x33
  | .stRegs x => formatXKK 0xF x 0x55
  | .ldRegs x => formatXKK 0xF x 0x65

/-- The two bytes of an instruction as they lie in memory, lower address first. -/
def encodeBytes (i : Instr) : List Byte := [highByte (encode i), lowByte (encode i)]

/-- The word that the host's opcode-table query names: bits `nbits - 1` to 0 of `w`, every bit above them 0. -/
def tableWord (nbits w : Nat) : Word := BitVec.ofNat 16 (w % 2 ^ nbits)

/-- The instruction the decoder reads from the word numbered as spec/opcode_table.json numbers it, laid out as two bytes
with the more significant one first (R53); none where the decoder refuses. -/
def decodeTableWord (nbits w : Nat) : Option Instr :=
  match decodeBytes [highByte (tableWord nbits w), lowByte (tableWord nbits w)] with
  | .ok (i, _) => some i
  | .error _ => none

end Sys2Proof
end

