-- ==== Sys2Proof/Config.lean ====
section
/-! DEFINITION. What is fixed for the machine (spec 00_scope R6) and its one free value, the random input. -/

namespace Sys2Proof.Config

/-- `MEM_SIZE`: bytes of memory, addresses 0 to 4095 (R6, R50). -/
abbrev memSize : Nat := 4096

/-- `PROG_BASE`: load address and reset value of `pc` (R6, R192). -/
abbrev progBase : Nat := 512

/-- `PROG_MAX`: the largest program image, `MEM_SIZE - PROG_BASE` (R6, R191). -/
abbrev progMax : Nat := 3584

/-- `GLYPH_BASE`: address of the first glyph byte (R6, R142). -/
abbrev glyphBase : Nat := 0

/-- `GLYPH_BYTES`: size of the glyph table (R6, R52). -/
abbrev glyphBytes : Nat := 80

/-- `STACK_DEPTH`: entries of the call stack (R6, R26). -/
abbrev stackDepth : Nat := 16

/-- `SCREEN_W`: columns of the framebuffer (R6, R31). -/
abbrev screenW : Nat := 64

/-- `SCREEN_H`: rows of the framebuffer (R6, R31). -/
abbrev screenH : Nat := 32

/-- `NKEYS`: key latches (R6, R29). -/
abbrev nKeys : Nat := 16

/-- The byte on the input `rnd` at the `n`-th execution of `Cxkk` since the load: a free value, under no law (R131, R187;
log 5). That it is the same after every load is the model's choice (DESIGN CHOICE, unsafe; log 15).
It has no body, so no proof can learn anything of it. -/
opaque rnd : Nat → Byte

end Sys2Proof.Config
end

