-- ==== Sys2Proof/Machine/Glyphs.lean ====
section
/-! DEFINITION. The built-in glyph table `GLYPHS` (spec 20_memory R52). Its size, place and purpose are the source's; its
bytes are the spec's default from general knowledge (92_eei_decisions D5; log 3, PRESUMED, unsafe). -/

namespace Sys2Proof.Machine

/-- Glyphs 0 to 7, five bytes each, top row first. -/
def glyphsLow : List Byte :=
  [0xF0, 0x90, 0x90, 0x90, 0xF0,
   0x20, 0x60, 0x20, 0x20, 0x70,
   0xF0, 0x10, 0xF0, 0x80, 0xF0,
   0xF0, 0x10, 0xF0, 0x10, 0xF0,
   0x90, 0x90, 0xF0, 0x10, 0x10,
   0xF0, 0x80, 0xF0, 0x10, 0xF0,
   0xF0, 0x80, 0xF0, 0x90, 0xF0,
   0xF0, 0x10, 0x20, 0x40, 0x40]

/-- Glyphs 8 to F. -/
def glyphsHigh : List Byte :=
  [0xF0, 0x90, 0xF0, 0x90, 0xF0,
   0xF0, 0x90, 0xF0, 0x10, 0xF0,
   0xF0, 0x90, 0xF0, 0x90, 0x90,
   0xE0, 0x90, 0xE0, 0x90, 0xE0,
   0xF0, 0x80, 0x80, 0x80, 0xF0,
   0xE0, 0x90, 0x90, 0x90, 0xE0,
   0xF0, 0x80, 0xF0, 0x80, 0xF0,
   0xF0, 0x80, 0xF0, 0x80, 0x80]

/-- `GLYPHS`: 16 glyphs of 5 bytes, glyph `d` at `5 * d`. -/
def glyphs : List Byte := glyphsLow ++ glyphsHigh

end Sys2Proof.Machine
end

