-- ==== Sys2Proof/Machine/State.lean ====
section
/-! DEFINITION. The state of the core (spec 10_state R20), its outcomes' reasons, and the state right after reset (R36). -/

namespace Sys2Proof.Machine

/-- The fault codes of 60_exceptions R170, by name; code 7 is unused. -/
inductive FaultCode where
  /-- Code 0: none. -/
  | success
  /-- Code 1: the word matches no row of the opcode map (R171). -/
  | invalidOpcode
  /-- Code 2: `pc > 0x0FFE` at the start of the step (R172). -/
  | fetchBounds
  /-- Code 3: the last byte to be accessed lies above 4095 (R173). -/
  | dataBounds
  /-- Code 4: `2nnn` with `sp = 16` (R174). -/
  | stackOverflow
  /-- Code 5: `00EE` with `sp = 0` (R175). -/
  | stackUnderflow
  /-- Code 6: `Ex9E` or `ExA1` with `V[x] > 15` (R176). -/
  | keyIndex
  deriving DecidableEq, Repr

/-- The report of the last step, on the output signals `status`, `iw_out` and `info_out` (10_state R33, 40_step_cycle R95). -/
structure Report where
  status  : FaultCode
  iwOut   : Word
  infoOut : Word
  deriving DecidableEq, Repr

/-- The framebuffer: 32 rows of 64 pixels, `true` = lit; row 0 at the top, column 0 at the left (10_state R31). -/
abbrev Screen := Vector (Vector Bool 64) 32

/-- The bytes of `mem` that differ from what they hold after reset, addresses strictly rising (R34; see `resetByte` in
Machine/Ops.lean for what an unlisted address reads as). -/
abbrev Memory := List Host.Cell

/-- The state of the core: the elements of R20, the output signals of the last step, and the model's own counter of the
random input's samples. -/
structure State where
  /-- `V[0]` to `V[15]` (R21); `V[15]` is VF (R22). -/
  v          : Vector Byte 16
  /-- The index register `I` (R23). -/
  i          : Word
  /-- The program counter (R24). -/
  pc         : Word
  /-- The stack pointer, 0 (empty) to 16 (full) (R25). -/
  sp         : Fin 17
  /-- The call stack (R26). -/
  stack      : Vector Word 16
  /-- The delay timer `DT` (R27). -/
  dt         : Byte
  /-- The sound timer `ST` (R28). -/
  st         : Byte
  /-- The key latches, `true` = pressed (R29). -/
  keys       : Vector Bool 16
  /-- `lk_key`, the key last recorded by `Fx0A` (R30). -/
  lkKey      : Nibble
  /-- `lk_pressed`, whether that record is live (R30). -/
  lkPressed  : Bool
  /-- The framebuffer (R31). -/
  screen     : Screen
  /-- The sticky fault latch's code (R32). -/
  fault      : FaultCode
  /-- The faulting step's instruction word (R32). -/
  faultIw    : Word
  /-- The faulting step's information value (R32). -/
  faultInfo  : Word
  /-- `mem` (R34). -/
  mem        : Memory
  /-- The output signals of the last step (R33, R95; log 2). -/
  out        : Report
  /-- The model's own: how many samples of `rnd` have been taken since the load (R187; log 5, 15). -/
  rndDraws   : Nat
  deriving DecidableEq, Repr

/-- Reasons to stop with no successor state. The six faults of R170 are no such stop: taking one is a next state that
sets the fault latch (R179; log 1). -/
inductive Fault where
  /-- Raised by the host operation `resetLoad` alone, for an image longer than 3584 bytes (R191). Safe: the spec gives a
  refused load no successor state. -/
  | programTooLarge
  deriving DecidableEq, Repr

/-- Reasons to give no meaning. -/
inductive Refusal where
  /-- An instruction that has no meaning yet: raised by `exec`'s refused arms alone (there are none). Safe. -/
  | notModelled (mnemonic : String)
  /-- Raised by `hostStep` for a `Step`, `SetKeys` or `Tick` before a successful `ResetLoad` (R193). Safe: the spec admits
  none of them. -/
  | notLoaded
  deriving DecidableEq, Repr

/-- What a step or a meaning answers. -/
abbrev Result := Host.Outcome State Fault Refusal

/-- All 2048 pixels dark. -/
def blankScreen : Screen := Vector.replicate 32 (Vector.replicate 64 false)

/-- The state right after `ResetLoad` of the empty image (R36, R190): every element zero but `pc` = 512, and memory as
reset leaves it, nothing listed. The output signals, which the spec gives no value before the first step, are 0 (log 2). -/
def State.reset : State where
  v := Vector.replicate 16 0
  i := 0
  pc := 0x0200
  sp := 0
  stack := Vector.replicate 16 0
  dt := 0
  st := 0
  keys := Vector.replicate 16 false
  lkKey := 0
  lkPressed := false
  screen := blankScreen
  fault := .success
  faultIw := 0
  faultInfo := 0
  mem := []
  out := ⟨.success, 0, 0⟩
  rndDraws := 0

end Sys2Proof.Machine
end

