-- ==== Sys2Proof/Machine/Ops.lean ====
section
/-! DEFINITION. The named operations over the state: registers, memory, the framebuffer, the call stack, `pc`, taking a
fault and reporting a step. -/

namespace Sys2Proof.Machine

/-! ## V registers (10_state R21) -/

/-- The index of the flag register VF = `V[0xF]` (R22). -/
abbrev vf : Nibble := 0xF

/-- `V[x]`. -/
def State.reg (s : State) (x : Nibble) : Byte := s.v[x.toNat]'(by have := x.isLt; omega)

/-- `V[x] <- b`. -/
def State.setReg (s : State) (x : Nibble) (b : Byte) : State :=
  { s with v := s.v.set x.toNat b (by have := x.isLt; omega) }

/-- `V[0]` to `V[x]`, in ascending order (R54). -/
def State.regsUpTo (s : State) (x : Nibble) : List Byte :=
  (List.range (x.toNat + 1)).map fun k => s.reg (BitVec.ofNat 4 k)

/-- `V[k] <- b` for each byte in turn, `k` ascending (R54, R145). -/
def State.loadRegs (s : State) (k : Nat) : List Byte → State
  | [] => s
  | b :: bs => (s.setReg (BitVec.ofNat 4 k) b).loadRegs (k + 1) bs

/-! ## Memory (20_memory R50, R51, R56) -/

/-- What `mem[a]` holds after reset with the empty image: the glyph table from address 0, every other byte zero (R36, R51).
It is what an unlisted address reads as. -/
def resetByte (a : Nat) : Byte := glyphs.getD a 0

/-- `MemRead(a, 1)` (R56), for `a <= 4095`, which every caller has checked (R55; log 10). -/
def Memory.read : Memory → Nat → Byte
  | [], a => resetByte a
  | (b, w) :: m, a => if a = b then w else Memory.read m a

/-- List the byte `w` at `a`, in the place its address has in the rising order. -/
def Memory.list : Memory → Nat → Byte → Memory
  | [], a, w => [(a, w)]
  | (b, u) :: m, a, w =>
    if a < b then (a, w) :: (b, u) :: m
    else if a = b then (a, w) :: m
    else (b, u) :: Memory.list m a w

/-- Unlist the address `a`, so that it reads as `resetByte a`. -/
def Memory.unlist (m : Memory) (a : Nat) : Memory := m.filter fun c => c.1 ≠ a

/-- `MemWrite(a, 1, w)` (R56), for `a <= 4095`; the canonical form lists no byte that equals what the unlisted address
reads as. No caller reaches an address above 4095 (R55; log 10): nothing is written there. -/
def Memory.write (m : Memory) (a : Nat) (w : Byte) : Memory :=
  if Config.memSize ≤ a then m
  else if w = resetByte a then m.unlist a
  else m.list a w

/-- The `n` bytes at `a, a+1, ...`, read in ascending order (R54). -/
def Memory.readBytes (m : Memory) (a : Nat) : Nat → List Byte
  | 0 => []
  | n + 1 => m.read a :: m.readBytes (a + 1) n

/-- The bytes written at `a, a+1, ...`, in ascending order (R54). -/
def Memory.writeBytes (m : Memory) (a : Nat) : List Byte → Memory
  | [] => m
  | w :: ws => (m.write a w).writeBytes (a + 1) ws

/-- Addresses strictly rising, each below the bound 4096, no byte equal to what its unlisted address reads as. -/
def Memory.wfFrom (low : Nat) : Memory → Bool
  | [] => true
  | (a, w) :: m =>
    decide (low ≤ a) && decide (a < Config.memSize) && decide (w ≠ resetByte a) && Memory.wfFrom (a + 1) m

/-- The canonical form of memory: equal memories are equal data. -/
def Memory.wf (m : Memory) : Bool := Memory.wfFrom 0 m

/-- The byte of the state's memory at `a`. -/
def State.byteAt (s : State) (a : Nat) : Byte := s.mem.read a

/-! ## Framebuffer (10_state R31) -/

/-- `screen[r][c]`; dark outside the 32 x 64 pixels, where there is none. -/
def State.pixel (s : State) (r c : Nat) : Bool :=
  if h : r < 32 ∧ c < 64 then (s.screen[r]'h.1)[c]'h.2 else false

/-! ## Key latches (10_state R29) -/

/-- `keys[k]`: whether key `k` is pressed. -/
def keyDown (keys : Vector Bool 16) (k : Nat) : Bool := if h : k < 16 then keys[k] else false

/-! ## Program counter (10_state R24); all its arithmetic is modulo 65536 -/

/-- `pc <- target`. -/
def State.setPc (s : State) (target : Word) : State := { s with pc := target }

/-- `pc <- (pc + 2) mod 65536`: the advance of R92 and the skip of R109. -/
def State.advance (s : State) : State := s.setPc (s.pc + 2)

/-- `pc <- (pc - 2) mod 65536`: the rewind of the key wait (R162). -/
def State.rewind (s : State) : State := s.setPc (s.pc - 2)

/-- A skip when the condition holds (R109). -/
def State.skipIf (s : State) (cond : Bool) : State := if cond then s.advance else s

/-- `I <- w` (R23). -/
def State.setI (s : State) (w : Word) : State := { s with i := w }

/-! ## Fetch (20_memory R53, 40_step_cycle R91) -/

/-- The largest `pc` at which both bytes of an instruction lie in memory (R91). -/
abbrev lastFetch : Nat := 0x0FFE

/-- Whether `mem[pc]` and `mem[pc+1]` exist (R55 (a), R91). -/
def State.canFetch (s : State) : Bool := decide (s.pc.toNat ≤ lastFetch)

/-- `iw = {mem[pc], mem[pc+1]}`, big-endian (R53). -/
def State.fetchWord (s : State) : Word :=
  wordOfBytes (s.byteAt s.pc.toNat) (s.byteAt (s.pc.toNat + 1))

/-- The two bytes of `iw` written at `pc` (R53). -/
def State.writeWord (s : State) (iw : Word) : State :=
  { s with mem := s.mem.writeBytes s.pc.toNat [highByte iw, lowByte iw] }

/-- No fault latched: a latched one would keep the next step from fetching at all (R90; log 9). -/
def State.unlatched (s : State) : State :=
  if s.fault = .success then s else { s with fault := .success, faultIw := 0, faultInfo := 0 }

/-- `pc` where a word can be fetched: a `pc` outside the fetch range (R91) is set to the entry point (log 9). -/
def State.fetchable (s : State) : State := if s.canFetch then s else s.setPc (BitVec.ofNat 16 Config.progBase)

/-- The state with the word `iw` stored where the next step fetches it (log 9). -/
def State.placeWord (s : State) (iw : Word) : State := s.unlatched.fetchable.writeWord iw

/-! ## Faults (60_exceptions R170, R179) -/

/-- The 3-bit code of R170, as it stands on `status` and in the register `fault`. -/
def FaultCode.bits : FaultCode → BitVec 3
  | .success => 0
  | .invalidOpcode => 1
  | .fetchBounds => 2
  | .dataBounds => 3
  | .stackOverflow => 4
  | .stackUnderflow => 5
  | .keyIndex => 6

/-- Setting the fault latch (R32, R179 (b)). -/
def State.latch (s : State) (code : FaultCode) (iw info : Word) : State :=
  { s with fault := code, faultIw := iw, faultInfo := info }

/-- Taking a fault (R11, R179): the instruction is abandoned, the latch is set, nothing else changes and control goes
nowhere. The outcome is a next state, whose latch stops every later step (R180; log 1). There is no return from a
fault (R180): only `resetLoad` clears the latch. -/
def raise (s : State) (code : FaultCode) (iw info : Word) : Result := .next (s.latch code iw info)

/-- `raise` from the execution of `ins`, whose own word is latched (R170, column `iw`; log 7). -/
def raiseFrom (ins : Instr) (s : State) (code : FaultCode) (info : Word) : Result := raise s code (encode ins) info

/-! ## Report (40_step_cycle R95) -/

/-- The report of a step whose word was `iw`: 0, the word and 0 on success, else the three values of the latch. -/
def State.report (s : State) (iw : Word) : State :=
  { s with out := if s.fault = .success then ⟨.success, iw, 0⟩ else ⟨s.fault, s.faultIw, s.faultInfo⟩ }

/-- The report attached to the outcome of a step. -/
def reported (iw : Word) : Result → Result
  | .next s => .next (s.report iw)
  | .fault r => .fault r
  | .refused r => .refused r

end Sys2Proof.Machine
end

