-- ==== Sys2Proof/Machine/Flags.lean ====
section
/-! DEFINITION. The flag computations (spec 10_state R22, 42_load_and_alu R132, R133): all unsigned, all into VF. -/

namespace Sys2Proof.Machine

/-- The flag value 1 or 0 as a byte. -/
def flagByte (b : Bool) : Byte := if b then 1 else 0

/-- Carry out of bit 7: the 9-bit sum exceeded 255 (R126). -/
def carryOut (a b : Byte) : Bool := decide (255 < a.toNat + b.toNat)

/-- No borrow in `a - b`: unsigned `a >= b` (R127, R129). -/
def noBorrow (a b : Byte) : Bool := decide (b.toNat ≤ a.toNat)

/-- Bit 0, the bit a right shift drops (R128). -/
def lowBit (b : Byte) : Bool := b.getLsbD 0

/-- Bit 7, the bit a left shift drops (R130). -/
def highBit (b : Byte) : Bool := b.getLsbD 7

/-- `V[x]` is written first and `V[0xF]` second, both from operands already read (R94, R133). -/
def State.setRegFlag (s : State) (x : Nibble) (result : Byte) (flag : Bool) : State :=
  (s.setReg x result).setReg vf (flagByte flag)

end Sys2Proof.Machine
end

