-- ==== Sys2Proof/Machine/Operands.lean ====
section
/-! DEFINITION. The operand forms (spec 30_encoding R73, 43_index_and_memory R146): immediates as they stand, registers,
and memory through `I`. -/

namespace Sys2Proof.Machine

/-- `zext_16` of a 12-bit address (R73). -/
def zextAddr (addr : Addr) : Word := addr.setWidth 16

/-- `zext_16` of a byte (R107, R141, R170). -/
def zextByte (b : Byte) : Word := b.setWidth 16

/-- Whether an access of `count` bytes from `I` reaches beyond address 4095: `count >= 1` and `I + count - 1 > 4095`, over
the integers (R55 (b), R146). -/
def outOfRange (i : Word) (count : Nat) : Bool :=
  decide (1 ≤ count) && decide (4095 < i.toNat + count - 1)

/-- An instruction that accesses `count` bytes at `I`: `DataBounds(I)` before any effect when one lies outside memory
(R55 (b), R173), else the completed effect `done`. -/
def accessing (ins : Instr) (s : State) (count : Nat) (done : State) : Result :=
  if outOfRange s.i count then raiseFrom ins s .dataBounds s.i else .next done

/-- An instruction that takes the key number `a`: `KeyIndex(a)` when it is above 15 (R176), else the effect `done`. -/
def withKey (ins : Instr) (s : State) (a : Byte) (done : State) : Result :=
  if 15 < a.toNat then raiseFrom ins s .keyIndex (zextByte a) else .next done

/-- The address of glyph `d` (R52, R142). -/
def glyphAddress (d : Nat) : Word := BitVec.ofNat 16 (Config.glyphBase + 5 * d)

/-- The three decimal digits of a byte: hundreds, tens, ones (R143). -/
def decimalDigits (a : Byte) : List Byte :=
  [BitVec.ofNat 8 (a.toNat / 100), BitVec.ofNat 8 (a.toNat / 10 % 10), BitVec.ofNat 8 (a.toNat % 10)]

end Sys2Proof.Machine
end

