-- ==== Sys2Proof/Machine/ControlFlow.lean ====
section
/-! DEFINITION. Control transfer (spec 41_control_flow). On entry `pc` is the advanced value of R92: the address of the
instruction plus 2. -/

namespace Sys2Proof.Machine

/-- `00EE` RET (R100): `StackUnderflow` on an empty stack, else pop; the popped entry is not cleared. -/
def execRet (s : State) : Result :=
  if s.sp.val = 0 then raiseFrom .ret s .stackUnderflow (BitVec.ofNat 16 s.sp.val)
  else .next { s with
    sp := ⟨s.sp.val - 1, by have := s.sp.isLt; omega⟩
    pc := s.stack[s.sp.val - 1]'(by have := s.sp.isLt; omega) }

/-- `1nnn` JP addr (R101). -/
def execJp (addr : Addr) (s : State) : Result := .next (s.setPc (zextAddr addr))

/-- `2nnn` CALL addr (R102): `StackOverflow` on a full stack, else push the advanced `pc` and jump. -/
def execCall (addr : Addr) (s : State) : Result :=
  if h : s.sp.val = 16 then raiseFrom (.call addr) s .stackOverflow (BitVec.ofNat 16 s.sp.val)
  else .next { s with
    stack := s.stack.set s.sp.val s.pc (by have := s.sp.isLt; omega)
    sp := ⟨s.sp.val + 1, by have := s.sp.isLt; omega⟩
    pc := zextAddr addr }

/-- `3xkk` SE Vx, kk (R103). -/
def execSeImm (x : Nibble) (kk : Byte) (s : State) : Result := .next (s.skipIf (s.reg x == kk))

/-- `4xkk` SNE Vx, kk (R104). -/
def execSneImm (x : Nibble) (kk : Byte) (s : State) : Result := .next (s.skipIf (s.reg x != kk))

/-- `5xy0` SE Vx, Vy (R105). -/
def execSeReg (x y : Nibble) (s : State) : Result := .next (s.skipIf (s.reg x == s.reg y))

/-- `9xy0` SNE Vx, Vy (R106). -/
def execSneReg (x y : Nibble) (s : State) : Result := .next (s.skipIf (s.reg x != s.reg y))

/-- `Bnnn` JP V0, addr (R107): the offset is `V[0]`; the sum is not reduced modulo 4096. -/
def execJpV0 (addr : Addr) (s : State) : Result := .next (s.setPc (zextAddr addr + zextByte (s.reg 0)))

end Sys2Proof.Machine
end

