-- ==== Sys2Proof/Machine/Display.lean ====
section
/-! DEFINITION. The framebuffer: clear, and the sprite compositor with collision detection (spec 44_display). -/

namespace Sys2Proof.Machine

/-- `00E0` CLS (R150): every pixel dark; VF is not written. -/
def execCls (s : State) : Result := .next { s with screen := blankScreen }

/-- The framebuffer while a sprite is drawn, with the collision flag so far (`coll` of R151). -/
structure Canvas where
  screen : Screen
  coll   : Bool
  deriving DecidableEq, Repr

/-- A set sprite bit at row `r`, column `c`: the pixel is toggled, and going from lit to dark is a collision; at or beyond
the edge of the screen the bit is skipped (R151). -/
def plot (cv : Canvas) (r c : Nat) : Canvas :=
  if h : r < 32 ∧ c < 64 then
    { screen := cv.screen.set r ((cv.screen[r]'h.1).set c (!(cv.screen[r]'h.1)[c]'h.2) h.2) h.1
      coll := cv.coll || (cv.screen[r]'h.1)[c]'h.2 }
  else cv

/-- Sprite column `c` of a row byte: bit `7 - c`, so that bit 7 is the leftmost pixel (R152; log 4). -/
def spriteBit (b : Byte) (c : Nat) : Bool := b.getLsbD (7 - c)

/-- One sprite row at screen row `r`, its column 0 at screen column `ox` (R151). -/
def drawRow (b : Byte) (r ox : Nat) (cv : Canvas) : Canvas :=
  (List.range 8).foldl (fun cv c => if spriteBit b c then plot cv r (ox + c) else cv) cv

/-- The sprite rows from screen row `r` downward (R151). -/
def drawRows (ox : Nat) : List Byte → Nat → Canvas → Canvas
  | [], _, cv => cv
  | b :: bs, r, cv => drawRows ox bs (r + 1) (drawRow b r ox cv)

/-- The origin column, `V[x] mod 64` (R151). -/
def originCol (s : State) (x : Nibble) : Nat := (s.reg x).toNat % 64

/-- The origin row, `V[y] mod 32` (R151). -/
def originRow (s : State) (y : Nibble) : Nat := (s.reg y).toNat % 32

/-- `Dxyn` DRW Vx, Vy, n (R151): all `n` bytes are range-checked; VF is written once, after the whole sprite. -/
def execDrw (x y n : Nibble) (s : State) : Result :=
  let cv := drawRows (originCol s x) (s.mem.readBytes s.i.toNat n.toNat) (originRow s y) ⟨s.screen, false⟩
  accessing (.drw x y n) s n.toNat ({ s with screen := cv.screen }.setReg vf (flagByte cv.coll))

end Sys2Proof.Machine
end

