-- ==== Sys2Proof/Machine/IndexMemory.lean ====
section
/-! DEFINITION. The index register and the memory instructions (spec 43_index_and_memory). None writes VF as a side
effect, and none changes `pc`. -/

namespace Sys2Proof.Machine

/-- `Annn` LD I, addr (R140). -/
def execLdI (addr : Addr) (s : State) : Result := .next (s.setI (zextAddr addr))

/-- `Fx1E` ADD I, Vx (R141): modulo 65536, no flag. -/
def execAddI (x : Nibble) (s : State) : Result := .next (s.setI (s.i + zextByte (s.reg x)))

/-- `Fx29` LD F, Vx (R142): only the low nibble of `V[x]` counts. -/
def execLdF (x : Nibble) (s : State) : Result := .next (s.setI (glyphAddress ((s.reg x).toNat % 16)))

/-- `Fx33` LD B, Vx (R143): three digits at `I`, `I+1`, `I+2`; `I` is not changed. -/
def execLdB (x : Nibble) (s : State) : Result :=
  accessing (.ldB x) s 3 { s with mem := s.mem.writeBytes s.i.toNat (decimalDigits (s.reg x)) }

/-- `Fx55` LD [I], Vx (R144): store `V[0]` to `V[x]`, then `I` moves past them. -/
def execStRegs (x : Nibble) (s : State) : Result :=
  accessing (.stRegs x) s (x.toNat + 1)
    { s with
      mem := s.mem.writeBytes s.i.toNat (s.regsUpTo x)
      i := s.i + BitVec.ofNat 16 (x.toNat + 1) }

/-- `Fx65` LD Vx, [I] (R145): load `V[0]` to `V[x]`, then `I` moves past them. -/
def execLdRegs (x : Nibble) (s : State) : Result :=
  accessing (.ldRegs x) s (x.toNat + 1)
    ((s.loadRegs 0 (s.mem.readBytes s.i.toNat (x.toNat + 1))).setI (s.i + BitVec.ofNat 16 (x.toNat + 1)))

end Sys2Proof.Machine
end

