-- ==== Sys2Proof/Machine/KeypadTimers.lean ====
section
/-! DEFINITION. The keypad and timer instructions (spec 45_keypad_and_timers). None writes VF as a side effect. -/

namespace Sys2Proof.Machine

/-- `Ex9E` SKP Vx (R160): the whole byte `V[x]` is the key number. -/
def execSkp (x : Nibble) (s : State) : Result :=
  withKey (.skp x) s (s.reg x) (s.skipIf (keyDown s.keys (s.reg x).toNat))

/-- `ExA1` SKNP Vx (R161). -/
def execSknp (x : Nibble) (s : State) : Result :=
  withKey (.sknp x) s (s.reg x) (s.skipIf (!keyDown s.keys (s.reg x).toNat))

/-- The scan of the key wait (R162): keys 0 to F in turn, each pressed key overwriting the record. -/
def scanKeys (keys : Vector Bool 16) (record : Nibble × Bool) : Nibble × Bool :=
  (List.range 16).foldl (fun record k => if keyDown keys k then (BitVec.ofNat 4 k, true) else record) record

/-- The release test of the key wait, after the scan (R162). -/
def released (keys : Vector Bool 16) (record : Nibble × Bool) : Bool :=
  record.2 && !keyDown keys record.1.toNat

/-- `Fx0A` LD Vx, K (R162): on the release of the recorded key its number goes to `V[x]` and the record is spent; else the
step is a waiting step and `pc` is rewound. -/
def execLdVxK (x : Nibble) (s : State) : Result :=
  let record := scanKeys s.keys (s.lkKey, s.lkPressed)
  if released s.keys record then
    .next { s.setReg x (record.1.setWidth 8) with lkKey := record.1, lkPressed := false }
  else .next { s.rewind with lkKey := record.1, lkPressed := record.2 }

/-- `Fx07` LD Vx, DT (R163). -/
def execLdVxDt (x : Nibble) (s : State) : Result := .next (s.setReg x s.dt)

/-- `Fx15` LD DT, Vx (R164). -/
def execLdDtVx (x : Nibble) (s : State) : Result := .next { s with dt := s.reg x }

/-- `Fx18` LD ST, Vx (R165). -/
def execLdStVx (x : Nibble) (s : State) : Result := .next { s with st := s.reg x }

end Sys2Proof.Machine
end

