-- ==== Sys2Proof/Machine/LoadAlu.lean ====
section
/-! DEFINITION. Register load, the 8-bit ALU and the random byte (spec 42_load_and_alu). None of these touches `pc` or
memory, and none can fault. In the comments `a` and `b` are `V[x]` and `V[y]` on entry. -/

namespace Sys2Proof.Machine

/-- `6xkk` LD Vx, kk (R120). -/
def execLdImm (x : Nibble) (kk : Byte) (s : State) : Result := .next (s.setReg x kk)

/-- `7xkk` ADD Vx, kk (R121): modulo 256, no flag. -/
def execAddImm (x : Nibble) (kk : Byte) (s : State) : Result := .next (s.setReg x (s.reg x + kk))

/-- `8xy0` LD Vx, Vy (R122): no flag. -/
def execLdReg (x y : Nibble) (s : State) : Result := .next (s.setReg x (s.reg y))

/-- `8xy1` OR Vx, Vy (R123): VF is cleared. -/
def execOrReg (x y : Nibble) (s : State) : Result := .next (s.setRegFlag x (s.reg x ||| s.reg y) false)

/-- `8xy2` AND Vx, Vy (R124): VF is cleared. -/
def execAndReg (x y : Nibble) (s : State) : Result := .next (s.setRegFlag x (s.reg x &&& s.reg y) false)

/-- `8xy3` XOR Vx, Vy (R125): VF is cleared. -/
def execXorReg (x y : Nibble) (s : State) : Result := .next (s.setRegFlag x (s.reg x ^^^ s.reg y) false)

/-- `8xy4` ADD Vx, Vy (R126): VF is the carry. -/
def execAddReg (x y : Nibble) (s : State) : Result :=
  .next (s.setRegFlag x (s.reg x + s.reg y) (carryOut (s.reg x) (s.reg y)))

/-- `8xy5` SUB Vx, Vy (R127): `a - b`, VF is the absence of borrow. -/
def execSub (x y : Nibble) (s : State) : Result :=
  .next (s.setRegFlag x (s.reg x - s.reg y) (noBorrow (s.reg x) (s.reg y)))

/-- `8xy6` SHR Vx, Vy (R128): the operand is `b`; VF is the bit shifted out. -/
def execShr (x y : Nibble) (s : State) : Result :=
  .next (s.setRegFlag x (s.reg y >>> 1) (lowBit (s.reg y)))

/-- `8xy7` SUBN Vx, Vy (R129): `b - a`, VF is the absence of borrow. -/
def execSubn (x y : Nibble) (s : State) : Result :=
  .next (s.setRegFlag x (s.reg y - s.reg x) (noBorrow (s.reg y) (s.reg x)))

/-- `8xyE` SHL Vx, Vy (R130): the operand is `b`; VF is the bit shifted out. -/
def execShl (x y : Nibble) (s : State) : Result :=
  .next (s.setRegFlag x (s.reg y <<< 1) (highBit (s.reg y)))

/-- One sample of the input `rnd` (R187): a free value, numbered by `rndDraws` (log 5). -/
def State.sample (s : State) : Byte := Config.rnd s.rndDraws

/-- The sample has been taken: the next one is another. -/
def State.sampled (s : State) : State := { s with rndDraws := s.rndDraws + 1 }

/-- `Cxkk` RND Vx, kk (R131). -/
def execRnd (x : Nibble) (kk : Byte) (s : State) : Result := .next (s.sampled.setReg x (s.sample &&& kk))

end Sys2Proof.Machine
end

