-- ==== Sys2Proof/Machine/Cycle.lean ====
section
/-! DEFINITION. The step (spec 40_step_cycle R90 to R96): latched fault, fetch, advance, decode, execute, report. -/

namespace Sys2Proof.Machine

/-- Decode and execute the fetched word in a state whose `pc` is already advanced (R93, R94, R96). -/
def runWord (iw : Word) (s : State) : Result :=
  match decode iw with
  | .ok ins => exec ins s
  | .error _ => raise s .invalidOpcode iw iw

/-- `Step` (R90), the checks in the order of R178. A latched fault changes no state and is reported again. -/
def cycle (s : State) : Result :=
  if s.fault ≠ .success then reported s.faultIw (.next s)
  else if s.canFetch then reported s.fetchWord (runWord s.fetchWord s.advance)
  else reported 0 (raise s .fetchBounds 0 s.pc)

end Sys2Proof.Machine
end

