-- ==== Sys2Proof/WellFormed.lean ====
section
/-! DEFINITION. What is well-formed: a legal instruction word (spec 30_encoding R74 to R77) and a loadable program
image (70_reset_and_hazards R191). A term of `Instr` needs no check: each operand's type has its field's exact width, and
every value of every field is legal (R73). The legality of a word is written from the match/mask columns of R75, apart
from the decoder, so that the two can be compared. -/

namespace Sys2Proof

/-- One row of the opcode map: the columns `match` and `mask` of R75. -/
structure OpcodeRow where
  value : Word
  mask  : Word
  deriving DecidableEq, Repr

/-- `(iw & mask) = match` (R74). -/
def OpcodeRow.covers (r : OpcodeRow) (iw : Word) : Bool := iw &&& r.mask == r.value

/-- Rows `00E0` to `9xy0` of R75: display clear and control transfer. -/
def opcodeRowsControl : List OpcodeRow :=
  [⟨0x00E0, 0xFFFF⟩, ⟨0x00EE, 0xFFFF⟩, ⟨0x1000, 0xF000⟩, ⟨0x2000, 0xF000⟩,
   ⟨0x3000, 0xF000⟩, ⟨0x4000, 0xF000⟩, ⟨0x5000, 0xF00F⟩, ⟨0x9000, 0xF00F⟩]

/-- Rows `6xkk` to `8xyE` of R75: loads and the ALU. -/
def opcodeRowsAlu : List OpcodeRow :=
  [⟨0x6000, 0xF000⟩, ⟨0x7000, 0xF000⟩, ⟨0x8000, 0xF00F⟩, ⟨0x8001, 0xF00F⟩,
   ⟨0x8002, 0xF00F⟩, ⟨0x8003, 0xF00F⟩, ⟨0x8004, 0xF00F⟩, ⟨0x8005, 0xF00F⟩,
   ⟨0x8006, 0xF00F⟩, ⟨0x8007, 0xF00F⟩, ⟨0x800E, 0xF00F⟩]

/-- Rows `Annn` to `Fx65` of R75. -/
def opcodeRowsIndex : List OpcodeRow :=
  [⟨0xA000, 0xF000⟩, ⟨0xB000, 0xF000⟩, ⟨0xC000, 0xF000⟩, ⟨0xD000, 0xF000⟩,
   ⟨0xE09E, 0xF0FF⟩, ⟨0xE0A1, 0xF0FF⟩, ⟨0xF007, 0xF0FF⟩, ⟨0xF015, 0xF0FF⟩,
   ⟨0xF018, 0xF0FF⟩, ⟨0xF00A, 0xF0FF⟩, ⟨0xF01E, 0xF0FF⟩, ⟨0xF029, 0xF0FF⟩,
   ⟨0xF033, 0xF0FF⟩, ⟨0xF055, 0xF0FF⟩, ⟨0xF065, 0xF0FF⟩]

/-- The opcode map of R75, its 34 rows in the table's order. -/
def opcodeRows : List OpcodeRow := opcodeRowsControl ++ opcodeRowsAlu ++ opcodeRowsIndex

/-- A word is an instruction exactly when one row of R75 covers it (R74). -/
def legalWord (iw : Word) : Bool := opcodeRows.any (·.covers iw)

/-- A program image is accepted by `ResetLoad` when it is at most 3584 bytes long (R191). -/
def imageFits (prog : List Byte) : Bool := decide (prog.length ≤ Config.progMax)

end Sys2Proof
end

