-- ==== Sys2Proof/Machine/HostOps.lean ====
section
/-! DEFINITION. What the host does to the core between steps (spec 70_reset_and_hazards R190 to R195, 60_exceptions R183 to
R186), and which of it is admitted (R193). -/

namespace Sys2Proof.Machine

/-- `ResetLoad(PROG)` (R190): the whole state is replaced by the reset state with the image from address 512; an image
that is too long is refused and leaves no successor state (R191; log 8). The counter of the random samples starts again at
0, so the samples after a load repeat those after an earlier one: the spec leaves `rnd` under no law and says no such thing
(R187; DESIGN CHOICE, unsafe; log 15). -/
def resetLoad (prog : List Byte) : Result :=
  if imageFits prog then .next { State.reset with mem := State.reset.mem.writeBytes Config.progBase prog }
  else .fault .programTooLarge

/-- The output `load_status` (R33, R191): 0 = accepted, 1 = `ProgramTooLarge`. -/
def loadStatus (prog : List Byte) : BitVec 1 := if imageFits prog then 0 else 1

/-- `SetKeys(k)` (R185): all 16 latches at once. -/
def State.setKeys (s : State) (k : Vector Bool 16) : State := { s with keys := k }

/-- A countdown by one that stops at zero (R183; log 13). -/
def countDown (t : Byte) : Byte := if t = 0 then 0 else t - 1

/-- `Tick` (R183): both timers, nothing else; also while a fault is latched (R180). -/
def State.tick (s : State) : State := { s with dt := countDown s.dt, st := countDown s.st }

/-- The output `tone` (R184): on exactly while `ST > 0`. -/
def State.tone (s : State) : Bool := decide (0 < s.st.toNat)

/-- The output `screen_out` (R186). -/
def State.screenOut (s : State) : Screen := s.screen

/-- The outputs `status`, `iw_out`, `info_out` (R95). -/
def State.reportOut (s : State) : BitVec 3 × Word × Word := (s.out.status.bits, s.out.iwOut, s.out.infoOut)

/-- The host's moves that act on the core (R194). -/
inductive HostMove where
  | resetLoad (prog : List Byte)
  | step
  | setKeys (k : Vector Bool 16)
  | tick
  deriving DecidableEq, Repr

/-- A move by the host on a core that is either runnable (`some s`) or not yet loaded (`none`): before a successful
`ResetLoad` nothing else is admitted (R193, R194). -/
def hostStep : HostMove → Option State → Result
  | .resetLoad prog, _ => resetLoad prog
  | .step, some s => step s
  | .setKeys k, some s => .next (s.setKeys k)
  | .tick, some s => .next s.tick
  | _, none => .refused .notLoaded

end Sys2Proof.Machine
end

