-- ==== Sys2Proof/Safety.lean ====
section
/-! DEFINITION. What the claims speak of: the parts of the state and what leaves them unchanged, the encoding of an
instruction as a number, the invariants, and the states the host can bring the core to. -/

namespace Sys2Proof.Machine

/-! ## Frames -/

/-- The parts of the state (10_state R20, the rows of the access table R37), the report (R33) and the model's counter. -/
inductive Part where
  | regs | index | pc | sp | stack | delay | sound | keys | keyRecord | screen | latch | mem | report | draws
  deriving DecidableEq, Repr

/-- `t` holds in the part what `s` holds: every register, every pixel, every byte of memory. -/
def Keeps (s t : State) : Part → Prop
  | .regs => ∀ r, t.reg r = s.reg r
  | .index => t.i = s.i
  | .pc => t.pc = s.pc
  | .sp => t.sp = s.sp
  | .stack => ∀ k : Fin 16, t.stack[k] = s.stack[k]
  | .delay => t.dt = s.dt
  | .sound => t.st = s.st
  | .keys => ∀ k : Fin 16, t.keys[k] = s.keys[k]
  | .keyRecord => t.lkKey = s.lkKey ∧ t.lkPressed = s.lkPressed
  | .screen => ∀ r c, t.pixel r c = s.pixel r c
  | .latch => t.fault = s.fault ∧ t.faultIw = s.faultIw ∧ t.faultInfo = s.faultInfo
  | .mem => ∀ a, t.byteAt a = s.byteAt a
  | .report => t.out = s.out
  | .draws => t.rndDraws = s.rndDraws

/-- Every part outside the list is unchanged. -/
def KeepsAllBut (s t : State) (changed : List Part) : Prop := ∀ p, p ∉ changed → Keeps s t p

/-- Every V register outside the list is unchanged. -/
def KeepsRegsBut (s t : State) (changed : List Nibble) : Prop := ∀ r, r ∉ changed → t.reg r = s.reg r

/-- Every byte of memory outside the `n` bytes from `a` is unchanged. -/
def KeepsBytesOutside (s t : State) (a n : Nat) : Prop := ∀ b, ¬ (a ≤ b ∧ b < a + n) → t.byteAt b = s.byteAt b

/-- The elements each instruction may write (R37, with the latch for those that can fault, R178). -/
def writesOf : Instr → List Part
  | .cls => [.screen]
  | .ret => [.pc, .sp, .latch]
  | .jp _ => [.pc]
  | .call _ => [.pc, .sp, .stack, .latch]
  | .seImm _ _ => [.pc]
  | .sneImm _ _ => [.pc]
  | .seReg _ _ => [.pc]
  | .sneReg _ _ => [.pc]
  | .ldImm _ _ => [.regs]
  | .addImm _ _ => [.regs]
  | .ldReg _ _ => [.regs]
  | .orReg _ _ => [.regs]
  | .andReg _ _ => [.regs]
  | .xorReg _ _ => [.regs]
  | .addReg _ _ => [.regs]
  | .sub _ _ => [.regs]
  | .shr _ _ => [.regs]
  | .subn _ _ => [.regs]
  | .shl _ _ => [.regs]
  | .ldI _ => [.index]
  | .jpV0 _ => [.pc]
  | .rnd _ _ => [.regs, .draws]
  | .drw _ _ _ => [.regs, .screen, .latch]
  | .skp _ => [.pc, .latch]
  | .sknp _ => [.pc, .latch]
  | .ldVxDt _ => [.regs]
  | .ldDtVx _ => [.delay]
  | .ldStVx _ => [.sound]
  | .ldVxK _ => [.regs, .pc, .keyRecord]
  | .addI _ => [.index]
  | .ldF _ => [.index]
  | .ldB _ => [.mem, .latch]
  | .stRegs _ => [.mem, .index, .latch]
  | .ldRegs _ => [.regs, .index, .latch]

/-- The instructions that may change VF: those of R22's table, and those whose destination is register 0xF (R38). -/
def mayChangeVF : Instr → Bool
  | .orReg _ _ => true
  | .andReg _ _ => true
  | .xorReg _ _ => true
  | .addReg _ _ => true
  | .sub _ _ => true
  | .shr _ _ => true
  | .subn _ _ => true
  | .shl _ _ => true
  | .drw _ _ _ => true
  | .ldImm x _ => x == 0xF
  | .addImm x _ => x == 0xF
  | .ldReg x _ => x == 0xF
  | .rnd x _ => x == 0xF
  | .ldVxDt x => x == 0xF
  | .ldVxK x => x == 0xF
  | .ldRegs x => x == 0xF
  | .cls => false
  | .ret => false
  | .jp _ => false
  | .call _ => false
  | .seImm _ _ => false
  | .sneImm _ _ => false
  | .seReg _ _ => false
  | .sneReg _ _ => false
  | .ldI _ => false
  | .jpV0 _ => false
  | .skp _ => false
  | .sknp _ => false
  | .ldDtVx _ => false
  | .ldStVx _ => false
  | .addI _ => false
  | .ldF _ => false
  | .ldB _ => false
  | .stRegs _ => false

/-- How many bytes an instruction accesses at `I` (the `count` of R55). -/
def byteCount : Instr → Nat
  | .drw _ _ n => n.toNat
  | .ldB _ => 3
  | .stRegs x => x.toNat + 1
  | .ldRegs x => x.toNat + 1
  | .cls => 0
  | .ret => 0
  | .jp _ => 0
  | .call _ => 0
  | .seImm _ _ => 0
  | .sneImm _ _ => 0
  | .seReg _ _ => 0
  | .sneReg _ _ => 0
  | .ldImm _ _ => 0
  | .addImm _ _ => 0
  | .ldReg _ _ => 0
  | .orReg _ _ => 0
  | .andReg _ _ => 0
  | .xorReg _ _ => 0
  | .addReg _ _ => 0
  | .sub _ _ => 0
  | .shr _ _ => 0
  | .subn _ _ => 0
  | .shl _ _ => 0
  | .ldI _ => 0
  | .jpV0 _ => 0
  | .rnd _ _ => 0
  | .skp _ => 0
  | .sknp _ => 0
  | .ldVxDt _ => 0
  | .ldDtVx _ => 0
  | .ldStVx _ => 0
  | .ldVxK _ => 0
  | .addI _ => 0
  | .ldF _ => 0

/-- The fault `code` has been taken with the word of number `iw` and the information value of number `info`, and
nothing outside the latch has changed (R11, R179, R181). -/
def TakesFault (s t : State) (code : FaultCode) (iw info : Nat) : Prop :=
  t.fault = code ∧ t.faultIw.toNat = iw ∧ t.faultInfo.toNat = info ∧ KeepsAllBut s t [.latch]

/-! ## Encoding as a number -/

/-- The words that decode to `i` are exactly the one whose 16 bits are the number `w` (R70, R75). -/
def EncodedAs (i : Instr) (w : Nat) : Prop := ∀ iw : Word, decode iw = .ok i ↔ iw.toNat = w

/-! ## The sprite, pixel by pixel -/

/-- The bit of the sprite that `Dxyn` lays over `screen[r][c]`: row `r - oy` of the sprite is the byte at `I + (r - oy)`,
and its column `c - ox` is bit `7 - (c - ox)`; off the sprite or off the screen there is none (R151, R152). -/
def spritePixel (s : State) (x y n : Nibble) (r c : Nat) : Bool :=
  let ox := (s.reg x).toNat % 64
  let oy := (s.reg y).toNat % 32
  decide (oy ≤ r ∧ r < oy + n.toNat ∧ r < 32 ∧ ox ≤ c ∧ c < ox + 8 ∧ c < 64) &&
    (s.byteAt (s.i.toNat + (r - oy))).getLsbD (7 - (c - ox))

/-! ## Invariants -/

/-- The program counter and the stack hold only values a run can bring there (the bounds derived in R24). -/
def PcBounded (s : State) : Prop := s.pc.toNat ≤ 0x10FE ∧ ∀ k : Fin 16, s.stack[k].toNat ≤ 0x1000

/-- The fault latch agrees with the state that raised it: the columns `when`, `info` and `iw` of R170. -/
def LatchSound (s : State) : Prop :=
  match s.fault with
  | .success => s.faultIw = 0 ∧ s.faultInfo = 0
  | .invalidOpcode => legalWord s.faultIw = false ∧ s.faultInfo = s.faultIw
  | .fetchBounds => s.faultIw = 0 ∧ s.faultInfo = s.pc ∧ 0x0FFE < s.pc.toNat
  | .dataBounds => s.faultInfo = s.i ∧
      ∃ ins, decode s.faultIw = .ok ins ∧ 1 ≤ byteCount ins ∧ 4095 < s.i.toNat + byteCount ins - 1
  | .stackOverflow => s.faultInfo = 16 ∧ s.sp.val = 16 ∧ ∃ addr, decode s.faultIw = .ok (.call addr)
  | .stackUnderflow => s.faultInfo = 0 ∧ s.sp.val = 0 ∧ s.faultIw = 0x00EE
  | .keyIndex => ∃ x, (decode s.faultIw = .ok (.skp x) ∨ decode s.faultIw = .ok (.sknp x)) ∧
      15 < (s.reg x).toNat ∧ s.faultInfo.toNat = (s.reg x).toNat

/-- While a fault is latched the report is the latch (R95, R180). -/
def ReportSound (s : State) : Prop :=
  s.fault ≠ .success → s.out.status = s.fault ∧ s.out.iwOut = s.faultIw ∧ s.out.infoOut = s.faultInfo

/-- The invariant of the machine: canonical memory, bounded `pc` and stack, a sound latch and report. -/
def Inv (s : State) : Prop := s.mem.wf = true ∧ PcBounded s ∧ LatchSound s ∧ ReportSound s

/-- A safe state: no fault is latched (R199: a faulted state is never a successful end). -/
def Running (s : State) : Prop := s.fault = .success

/-! ## Reachable states -/

/-- The states the host can bring the core to, by any program and any interleaving of its moves (R190, R194, R195). -/
inductive Reachable : State → Prop where
  | load (prog : List Byte) (t : State) : resetLoad prog = .next t → Reachable t
  | step (s t : State) : Reachable s → Machine.step s = .next t → Reachable t
  | setKeys (s : State) (k : Vector Bool 16) : Reachable s → Reachable (s.setKeys k)
  | tick (s : State) : Reachable s → Reachable s.tick

end Sys2Proof.Machine
end

