-- ==== Sys2Proof/Certificates/Slice0/Obligations.lean ====
section
/-! DEFINITION. The statements for the provers. `exec i s` runs on a state whose `pc` is already advanced (40_step_cycle
R92), so "the address of the instruction" is `s.pc - 2` there. A statement whose docstring names a decision D<n>, a passage
from general knowledge G<n>, a derived rule or a log entry rests on that, and its basis is 'derived'. -/

open Sys2Proof Sys2Proof.Machine

/-! ## Reset, load and the host (70_reset_and_hazards, 60_exceptions R183 to R185) -/

/-- The table of R36: what `ResetLoad(PROG)` leaves, for every image that fits. Rests on D18 (latch), D21 (one operation)
and D5 (the glyph bytes are the model's table `glyphs`, log 3). -/
def Obligations.ResetLoadLeavesTableOfR36 : Prop :=
  ∀ prog : List Byte, prog.length ≤ 3584 → ∃ t, resetLoad prog = .next t ∧
    (∀ x, t.reg x = 0) ∧ t.i = 0 ∧ t.pc.toNat = 512 ∧ t.sp.val = 0 ∧ (∀ k : Fin 16, t.stack[k] = 0) ∧
    t.dt = 0 ∧ t.st = 0 ∧ (∀ k : Fin 16, t.keys[k] = false) ∧ t.lkKey = 0 ∧ t.lkPressed = false ∧
    (∀ r c, t.pixel r c = false) ∧ t.fault = .success ∧ t.faultIw = 0 ∧ t.faultInfo = 0 ∧
    (∀ a, a < 80 → t.byteAt a = glyphs.getD a 0) ∧
    (∀ a, 80 ≤ a → a < 512 → t.byteAt a = 0) ∧
    (∀ k, k < prog.length → t.byteAt (512 + k) = prog.getD k 0) ∧
    (∀ a, 512 + prog.length ≤ a → a < 4096 → t.byteAt a = 0)

/-- R191, R193: an image of more than 3584 bytes is refused whatever the core's state, one of at most 3584 is accepted,
and a core that is not loaded admits nothing but a load. Rests on D21 and log 8. -/
def Obligations.LoadIsRefusedExactlyAbove3584Bytes : Prop :=
  ∀ (prog : List Byte) (m : Option State),
    (3584 < prog.length → hostStep (.resetLoad prog) m = .fault .programTooLarge ∧ loadStatus prog = 1) ∧
    (prog.length ≤ 3584 → (∃ t, hostStep (.resetLoad prog) m = .next t) ∧ loadStatus prog = 0) ∧
    (∀ k, hostStep .step none = .refused .notLoaded ∧ hostStep (.setKeys k) none = .refused .notLoaded ∧
      hostStep .tick none = .refused .notLoaded)

/-- R183, R184, R185: `Tick` takes one from each timer that is not zero and nothing else, `SetKeys` writes the latches and
nothing else, `tone` is on exactly while `ST > 0`. Rests on D15 (a timer stops at zero, log 13). -/
def Obligations.HostMovesTouchOnlyTimersOrKeys : Prop :=
  ∀ s : State,
    ((s.tick).dt.toNat = s.dt.toNat - 1 ∧ (s.tick).st.toNat = s.st.toNat - 1 ∧
      KeepsAllBut s s.tick [.delay, .sound]) ∧
    (∀ k : Vector Bool 16, (∀ j : Fin 16, (s.setKeys k).keys[j] = k[j]) ∧ KeepsAllBut s (s.setKeys k) [.keys]) ∧
    (s.tone = true ↔ s.st ≠ 0)

/-! ## The step (40_step_cycle) -/

/-- R90 to R94, the step's frame: with no fault latched and both bytes of the word in memory, the step runs the instruction
that the big-endian word `iw` at `pc` decodes to, in the state whose `pc` has moved by 2, and reports (`reported`). -/
def Obligations.StepRunsTheDecodedInstruction : Prop :=
  ∀ (s : State) (iw : Word) (ins : Instr), s.fault = .success → s.pc.toNat ≤ 0x0FFE →
    iw.toNat = 256 * (s.byteAt s.pc.toNat).toNat + (s.byteAt (s.pc.toNat + 1)).toNat → decode iw = .ok ins →
    step s = reported iw (exec ins (s.setPc (s.pc + 2)))

/-- R96: a word that no row of R75 covers raises `InvalidOpcode`, with `pc` advanced by 2 and nothing else changed but the
fault latch and the report. Rests on D6 (the masks), D17 and D18 (what the latch and the report hold). -/
def Obligations.IllegalWordRaisesInvalidOpcode : Prop :=
  ∀ (s : State) (iw : Word), s.fault = .success → s.pc.toNat ≤ 0x0FFE →
    iw.toNat = 256 * (s.byteAt s.pc.toNat).toNat + (s.byteAt (s.pc.toNat + 1)).toNat → legalWord iw = false →
    ∃ t, step s = .next t ∧ t.fault = .invalidOpcode ∧ t.faultIw = iw ∧ t.faultInfo = iw ∧
      t.out = ⟨.invalidOpcode, iw, iw⟩ ∧ t.pc = s.pc + 2 ∧ KeepsAllBut s t [.pc, .latch, .report]

/-- R91, R172: above 0x0FFE nothing is fetched and `pc` is not advanced. Rests on D7 and D17. -/
def Obligations.FetchAboveMemoryRaisesFetchBounds : Prop :=
  ∀ s : State, s.fault = .success → 0x0FFE < s.pc.toNat →
    ∃ t, step s = .next t ∧ t.fault = .fetchBounds ∧ t.faultIw = 0 ∧ t.faultInfo = s.pc ∧
      t.out = ⟨.fetchBounds, 0, s.pc⟩ ∧ KeepsAllBut s t [.latch, .report]

/-- R90, R180: once a fault is latched, any number of further steps leaves the whole state unchanged and every one of them
reports the latch again. Rests on D18 and log 1. -/
def Obligations.LatchedFaultStopsEveryLaterStep : Prop :=
  ∀ (n : Nat) (s : State), s.fault ≠ .success →
    ∃ t, Host.Core.run Sys2Proof.core (n + 1) s = .next t ∧ KeepsAllBut s t [.report] ∧
      t.out = ⟨s.fault, s.faultIw, s.faultInfo⟩

/-- R95: what a step that started unfaulted reports. Rests on D17 and log 2. -/
def Obligations.StepReportsWordOrLatch : Prop :=
  ∀ s t : State, s.fault = .success → step s = .next t →
    (t.fault = .success → t.out.status = .success ∧ t.out.infoOut = 0 ∧
      t.out.iwOut.toNat = 256 * (s.byteAt s.pc.toNat).toNat + (s.byteAt (s.pc.toNat + 1)).toNat) ∧
    (t.fault ≠ .success → t.out = ⟨t.fault, t.faultIw, t.faultInfo⟩)

/-- R97, R98: a step always terminates, in every state, with a next state: the model stops nowhere. The reading of a fault
as a next state is the model's (log 1). -/
def Obligations.EveryStepAnswersNext : Prop := ∀ s : State, ∃ t, step s = .next t

/-- R181: a faulting step has changed nothing but the latch, the report and `pc`, which has moved by 2 for every fault but
`FetchBounds`. Rests on D8. -/
def Obligations.FaultsArePrecise : Prop :=
  ∀ s t : State, s.fault = .success → step s = .next t → t.fault ≠ .success →
    KeepsAllBut s t [.pc, .latch, .report] ∧
    t.pc = if t.fault = .fetchBounds then s.pc else s.pc + 2

/-- R170, R178: the one execute-time fault each instruction can raise, when, and what it latches. Rests on D8, D9, D10, D17
and log 7 (the latched word is the instruction's own). -/
def Obligations.ExecuteTimeFaultsAreTheTableOfR170 : Prop :=
  ∀ (i : Instr) (s t : State), s.fault = .success → exec i s = .next t → t.fault ≠ .success →
    decode t.faultIw = .ok i ∧ KeepsAllBut s t [.latch] ∧
    ((t.fault = .dataBounds ∧ t.faultInfo = s.i ∧ 1 ≤ byteCount i ∧ 4095 < s.i.toNat + byteCount i - 1) ∨
     (t.fault = .stackOverflow ∧ t.faultInfo = 16 ∧ s.sp.val = 16 ∧ ∃ addr, i = .call addr) ∨
     (t.fault = .stackUnderflow ∧ t.faultInfo = 0 ∧ s.sp.val = 0 ∧ i = .ret) ∨
     (t.fault = .keyIndex ∧ ∃ x, (i = .skp x ∨ i = .sknp x) ∧ 15 < (s.reg x).toNat ∧
       t.faultInfo.toNat = (s.reg x).toNat))

/-- R199 (c): at an instruction `1nnn` stored at address `nnn` a step changes no state at all, only the report. Rests on
R101 (derived) and D22. -/
def Obligations.SelfJumpIsAFixedPoint : Prop :=
  ∀ (s : State) (addr : Addr), s.fault = .success → s.pc.toNat ≤ 0x0FFE → decode s.fetchWord = .ok (.jp addr) →
    addr.toNat = s.pc.toNat → ∃ t, step s = .next t ∧ KeepsAllBut s t [.report] ∧ t.out = ⟨.success, s.fetchWord, 0⟩

/-- How an opcode-table query runs (the model's own, log 9): the placed word is what the next step fetches and decodes. -/
def Obligations.PlacedWordIsFetchedNext : Prop :=
  ∀ (s : State) (w : Nat) (i : Instr), decodeTableWord 16 w = some i →
    (s.withFetchWord 16 w).fault = .success ∧ (s.withFetchWord 16 w).pc.toNat ≤ 0x0FFE ∧
    decode (s.withFetchWord 16 w).fetchWord = .ok i ∧
    (s.fault = .success → s.pc.toNat ≤ 0x0FFE →
      KeepsAllBut s (s.withFetchWord 16 w) [.mem] ∧ KeepsBytesOutside s (s.withFetchWord 16 w) s.pc.toNat 2)

/-! ## Encoding (30_encoding) -/

/-- Decoding the word of an instruction gives it back, every operand at every value. -/
def Obligations.DecodeOfEncode : Prop := ∀ i : Instr, decode (encode i) = .ok i

/-- A word that decodes is the word of the instruction it decodes to: no two words mean one instruction (R76: every fixed
digit is compared). -/
def Obligations.EncodeOfDecode : Prop := ∀ (iw : Word) (i : Instr), decode iw = .ok i → encode i = iw

/-- R74: a word is an instruction exactly when one row of R75 covers it, and no two rows cover one word. The masks of the rows
`00E0`, `00EE`, `5xy0`, `9xy0` are D6's. -/
def Obligations.InstructionWordsAreTheCoveredOnes : Prop :=
  (∀ iw : Word, (∃ i, decode iw = .ok i) ↔ ∃ r ∈ opcodeRows, r.covers iw = true) ∧
  (∀ iw : Word, (opcodeRows.filter (·.covers iw)).length ≤ 1)

/-- R76, R77: which words are illegal, family by family. Rests on D6. -/
def Obligations.IllegalWordsByFamily : Prop :=
  ∀ iw : Word, decode iw = .error (.invalidOpcode iw) ↔
    (iw.toNat / 4096 = 0 ∧ iw.toNat ≠ 0x00E0 ∧ iw.toNat ≠ 0x00EE) ∨
    (iw.toNat / 4096 = 5 ∧ iw.toNat % 16 ≠ 0) ∨
    (iw.toNat / 4096 = 8 ∧ iw.toNat % 16 ∈ [0x8, 0x9, 0xA, 0xB, 0xC, 0xD, 0xF]) ∨
    (iw.toNat / 4096 = 9 ∧ iw.toNat % 16 ≠ 0) ∨
    (iw.toNat / 4096 = 14 ∧ iw.toNat % 256 ∉ [0x9E, 0xA1]) ∨
    (iw.toNat / 4096 = 15 ∧ iw.toNat % 256 ∉ [0x07, 0x0A, 0x15, 0x18, 0x1E, 0x29, 0x33, 0x55, 0x65])

/-- A few words written out from the patterns of R75, one of each family of the table. -/
def Obligations.SampleWordsDecode : Prop :=
  decode 0x1234 = .ok (.jp 0x234) ∧ decode 0x8AB4 = .ok (.addReg 0xA 0xB) ∧ decode 0xFE65 = .ok (.ldRegs 0xE) ∧
  decode 0xD12A = .ok (.drw 0x1 0x2 0xA) ∧ decode 0xE19E = .ok (.skp 0x1) ∧
  decode 0x01E0 = .error (.invalidOpcode 0x01E0)

/-- R53: the two bytes of an instruction, the one with the top nibble at the lower address, decode to it, and the bytes
after them are left over. -/
def Obligations.EncodedBytesDecode : Prop :=
  ∀ (i : Instr) (rest : List Byte), decodeBytes (encodeBytes i ++ rest) = .ok (i, rest) ∧
    ((encodeBytes i).getD 0 0).toNat = (encode i).toNat / 256

/-! ## Control transfer (41_control_flow) -/

/-- R100: with a return address on the stack, RET pops it into `pc`; the popped entry is not cleared. -/
def Obligations.RetPopsTheStack : Prop :=
  EncodedAs .ret 0x00EE ∧
  ∀ s : State, s.sp.val ≠ 0 → ∃ t, exec .ret s = .next t ∧ t.sp.val + 1 = s.sp.val ∧
    (∀ k : Fin 16, k.val + 1 = s.sp.val → t.pc = s.stack[k]) ∧ KeepsAllBut s t [.pc, .sp]

/-- R102: with a free entry, CALL pushes the advanced `pc` and jumps; every other entry is unchanged. -/
def Obligations.CallPushesTheAdvancedPc : Prop :=
  ∀ addr : Addr, EncodedAs (.call addr) (0x2000 + addr.toNat) ∧
  ∀ s : State, s.sp.val ≠ 16 → ∃ t, exec (.call addr) s = .next t ∧ t.sp.val = s.sp.val + 1 ∧
    t.pc.toNat = addr.toNat ∧ (∀ k : Fin 16, t.stack[k] = if k.val = s.sp.val then s.pc else s.stack[k]) ∧
    KeepsAllBut s t [.pc, .sp, .stack]

/-- R174, R175: CALL on a full stack and RET on an empty one take the fault; no push, no pop, no jump. Rests on D9. -/
def Obligations.StackFaultsLeaveTheStack : Prop :=
  (∀ (addr : Addr) (s : State), s.sp.val = 16 → ∃ t, exec (.call addr) s = .next t ∧
    TakesFault s t .stackOverflow (0x2000 + addr.toNat) 16) ∧
  (∀ s : State, s.sp.val = 0 → ∃ t, exec .ret s = .next t ∧ TakesFault s t .stackUnderflow 0x00EE 0)

/-- R101: JP loads the zero-extended address, whatever it is, and does nothing else. -/
def Obligations.JpSetsPc : Prop :=
  ∀ addr : Addr, EncodedAs (.jp addr) (0x1000 + addr.toNat) ∧
  ∀ s : State, ∃ t, exec (.jp addr) s = .next t ∧ t.pc.toNat = addr.toNat ∧ KeepsAllBut s t [.pc]

/-- R107: JP V0 adds the unsigned byte `V[0]`; the sum is not reduced modulo 4096. -/
def Obligations.JpV0AddsV0 : Prop :=
  ∀ addr : Addr, EncodedAs (.jpV0 addr) (0xB000 + addr.toNat) ∧
  ∀ s : State, ∃ t, exec (.jpV0 addr) s = .next t ∧ t.pc.toNat = addr.toNat + (s.reg 0).toNat ∧
    KeepsAllBut s t [.pc]

/-- R103, R104: the skips against an immediate add 2 to the advanced `pc` exactly when the condition holds. -/
def Obligations.ImmediateSkips : Prop :=
  ∀ (x : Nibble) (kk : Byte),
    EncodedAs (.seImm x kk) (0x3000 + 256 * x.toNat + kk.toNat) ∧
    EncodedAs (.sneImm x kk) (0x4000 + 256 * x.toNat + kk.toNat) ∧
    ∀ s : State,
      (∃ t, exec (.seImm x kk) s = .next t ∧
        t.pc = (if (s.reg x).toNat = kk.toNat then s.pc + 2 else s.pc) ∧ KeepsAllBut s t [.pc]) ∧
      (∃ t, exec (.sneImm x kk) s = .next t ∧
        t.pc = (if (s.reg x).toNat = kk.toNat then s.pc else s.pc + 2) ∧ KeepsAllBut s t [.pc])

/-- R105, R106: the skips that compare two registers. That a non-zero low nibble is another word is D6's. -/
def Obligations.RegisterSkips : Prop :=
  ∀ x y : Nibble,
    EncodedAs (.seReg x y) (0x5000 + 256 * x.toNat + 16 * y.toNat) ∧
    EncodedAs (.sneReg x y) (0x9000 + 256 * x.toNat + 16 * y.toNat) ∧
    ∀ s : State,
      (∃ t, exec (.seReg x y) s = .next t ∧
        t.pc = (if (s.reg x).toNat = (s.reg y).toNat then s.pc + 2 else s.pc) ∧ KeepsAllBut s t [.pc]) ∧
      (∃ t, exec (.sneReg x y) s = .next t ∧
        t.pc = (if (s.reg x).toNat = (s.reg y).toNat then s.pc else s.pc + 2) ∧ KeepsAllBut s t [.pc])

/-- The source's property of R100 (S8): RET after CALL restores `pc` to the instruction after the call and `sp` to its
value before it, wherever `pc` has gone meanwhile; all else but the stack passes through (R108, derived). That the other 15
entries are kept too follows from CallPushesTheAdvancedPc and RetPopsTheStack. Rests on D9. -/
def Obligations.RetAfterCallReturns : Prop :=
  ∀ (s : State) (addr : Addr) (w : Word), s.sp.val ≠ 16 →
    ∃ t u, exec (.call addr) s = .next t ∧ exec .ret (t.setPc w) = .next u ∧ u.pc = s.pc ∧ u.sp = s.sp ∧
      KeepsAllBut s u [.stack]

/-! ## Register load, ALU, random (42_load_and_alu) -/

/-- R120, R121, R122: load immediate, add immediate modulo 256 and copy write `V[x]` and nothing else: no flag. -/
def Obligations.LoadsAndAddImmediateWriteVxOnly : Prop :=
  (∀ (x : Nibble) (kk : Byte), EncodedAs (.ldImm x kk) (0x6000 + 256 * x.toNat + kk.toNat) ∧
    ∀ s : State, ∃ t, exec (.ldImm x kk) s = .next t ∧ t.reg x = kk ∧ KeepsRegsBut s t [x] ∧ KeepsAllBut s t [.regs]) ∧
  (∀ (x : Nibble) (kk : Byte), EncodedAs (.addImm x kk) (0x7000 + 256 * x.toNat + kk.toNat) ∧
    ∀ s : State, ∃ t, exec (.addImm x kk) s = .next t ∧ (t.reg x).toNat = ((s.reg x).toNat + kk.toNat) % 256 ∧
      KeepsRegsBut s t [x] ∧ KeepsAllBut s t [.regs]) ∧
  (∀ x y : Nibble, EncodedAs (.ldReg x y) (0x8000 + 256 * x.toNat + 16 * y.toNat) ∧
    ∀ s : State, ∃ t, exec (.ldReg x y) s = .next t ∧ t.reg x = s.reg y ∧ KeepsRegsBut s t [x] ∧
      KeepsAllBut s t [.regs])

/-- R123, R124, R125: OR, AND and XOR bit by bit, and VF cleared always. That with `x = 0xF` the register ends 0, and that
with `y = 0xF` the old VF is the operand, is D12's order of reads and writes (R133, log 14). -/
def Obligations.BitwiseOperationsClearVF : Prop :=
  ∀ x y : Nibble,
    EncodedAs (.orReg x y) (0x8001 + 256 * x.toNat + 16 * y.toNat) ∧
    EncodedAs (.andReg x y) (0x8002 + 256 * x.toNat + 16 * y.toNat) ∧
    EncodedAs (.xorReg x y) (0x8003 + 256 * x.toNat + 16 * y.toNat) ∧
    ∀ s : State,
      (∃ t, exec (.orReg x y) s = .next t ∧ t.reg 0xF = 0 ∧
        (x ≠ 0xF → ∀ k, (t.reg x).getLsbD k = ((s.reg x).getLsbD k || (s.reg y).getLsbD k)) ∧
        KeepsRegsBut s t [x, 0xF] ∧ KeepsAllBut s t [.regs]) ∧
      (∃ t, exec (.andReg x y) s = .next t ∧ t.reg 0xF = 0 ∧
        (x ≠ 0xF → ∀ k, (t.reg x).getLsbD k = ((s.reg x).getLsbD k && (s.reg y).getLsbD k)) ∧
        KeepsRegsBut s t [x, 0xF] ∧ KeepsAllBut s t [.regs]) ∧
      (∃ t, exec (.xorReg x y) s = .next t ∧ t.reg 0xF = 0 ∧
        (x ≠ 0xF → ∀ k, (t.reg x).getLsbD k = ((s.reg x).getLsbD k ^^ (s.reg y).getLsbD k)) ∧
        KeepsRegsBut s t [x, 0xF] ∧ KeepsAllBut s t [.regs])

/-- R126: the sum modulo 256 and the carry; with `x = 0xF` the carry is what remains (the write order is D12's). -/
def Obligations.AddRegistersWithCarry : Prop :=
  ∀ x y : Nibble, EncodedAs (.addReg x y) (0x8004 + 256 * x.toNat + 16 * y.toNat) ∧
  ∀ s : State, ∃ t, exec (.addReg x y) s = .next t ∧
    (t.reg 0xF).toNat = (if 255 < (s.reg x).toNat + (s.reg y).toNat then 1 else 0) ∧
    (x ≠ 0xF → (t.reg x).toNat = ((s.reg x).toNat + (s.reg y).toNat) % 256) ∧
    KeepsRegsBut s t [x, 0xF] ∧ KeepsAllBut s t [.regs]

/-- R127, R129: the two subtractions and the no-borrow flag, an unsigned comparison; with `x = 0xF` the flag is what
remains (the write order is D12's). -/
def Obligations.SubtractionsWithNoBorrowFlag : Prop :=
  ∀ x y : Nibble,
    EncodedAs (.sub x y) (0x8005 + 256 * x.toNat + 16 * y.toNat) ∧
    EncodedAs (.subn x y) (0x8007 + 256 * x.toNat + 16 * y.toNat) ∧
    ∀ s : State,
      (∃ t, exec (.sub x y) s = .next t ∧
        (t.reg 0xF).toNat = (if (s.reg y).toNat ≤ (s.reg x).toNat then 1 else 0) ∧
        (x ≠ 0xF → ((t.reg x).toNat : Int) = ((s.reg x).toNat - (s.reg y).toNat : Int) % 256) ∧
        KeepsRegsBut s t [x, 0xF] ∧ KeepsAllBut s t [.regs]) ∧
      (∃ t, exec (.subn x y) s = .next t ∧
        (t.reg 0xF).toNat = (if (s.reg x).toNat ≤ (s.reg y).toNat then 1 else 0) ∧
        (x ≠ 0xF → ((t.reg x).toNat : Int) = ((s.reg y).toNat - (s.reg x).toNat : Int) % 256) ∧
        KeepsRegsBut s t [x, 0xF] ∧ KeepsAllBut s t [.regs])

/-- R128, R130: the shifts take `V[y]` by one position and put the bit shifted out in VF; with `x = 0xF` the flag is what
remains (the write order is D12's). -/
def Obligations.ShiftsOfVyWithShiftedOutBit : Prop :=
  ∀ x y : Nibble,
    EncodedAs (.shr x y) (0x8006 + 256 * x.toNat + 16 * y.toNat) ∧
    EncodedAs (.shl x y) (0x800E + 256 * x.toNat + 16 * y.toNat) ∧
    ∀ s : State,
      (∃ t, exec (.shr x y) s = .next t ∧ (t.reg 0xF).toNat = (s.reg y).toNat % 2 ∧
        (x ≠ 0xF → (t.reg x).toNat = (s.reg y).toNat / 2) ∧
        KeepsRegsBut s t [x, 0xF] ∧ KeepsAllBut s t [.regs]) ∧
      (∃ t, exec (.shl x y) s = .next t ∧ (t.reg 0xF).toNat = (s.reg y).toNat / 128 ∧
        (x ≠ 0xF → (t.reg x).toNat = 2 * (s.reg y).toNat % 256) ∧
        KeepsRegsBut s t [x, 0xF] ∧ KeepsAllBut s t [.regs])

/-- R131: the sample of the random input masked by `kk`, one sample taken; it holds for every value of the free byte.
Rests on D16 and log 5. -/
def Obligations.RndMasksOneSample : Prop :=
  ∀ (x : Nibble) (kk : Byte), EncodedAs (.rnd x kk) (0xC000 + 256 * x.toNat + kk.toNat) ∧
  ∀ s : State, ∃ t, exec (.rnd x kk) s = .next t ∧
    (∀ k, (t.reg x).getLsbD k = ((Config.rnd s.rndDraws).getLsbD k && kk.getLsbD k)) ∧
    t.rndDraws = s.rndDraws + 1 ∧ KeepsRegsBut s t [x] ∧ KeepsAllBut s t [.regs, .draws]

/-- R38: only the instructions of R22's table and those whose destination is register 0xF change VF. The rule is derived. -/
def Obligations.OnlyFlagWritersChangeVF : Prop :=
  ∀ (i : Instr) (s t : State), exec i s = .next t → mayChangeVF i = false → t.reg 0xF = s.reg 0xF

/-! ## Index register and memory (43_index_and_memory) -/

/-- R140, R142: `I` is loaded with the zero-extended address, or pointed at the glyph of the low nibble of `V[x]` (address
`5 * d`); nothing else changes, no flag. -/
def Obligations.IndexLoadsSetI : Prop :=
  (∀ addr : Addr, EncodedAs (.ldI addr) (0xA000 + addr.toNat) ∧
    ∀ s : State, ∃ t, exec (.ldI addr) s = .next t ∧ t.i.toNat = addr.toNat ∧ KeepsAllBut s t [.index]) ∧
  (∀ x : Nibble, EncodedAs (.ldF x) (0xF029 + 256 * x.toNat) ∧
    ∀ s : State, ∃ t, exec (.ldF x) s = .next t ∧ t.i.toNat = 5 * ((s.reg x).toNat % 16) ∧ KeepsAllBut s t [.index])

/-- R141: `I` advances by the unsigned byte `V[x]`, modulo 65536 (the wrap is D11's); nothing else changes, no flag, whatever
the sum passes. -/
def Obligations.AddToIndexWrapsWithoutFlag : Prop :=
  ∀ x : Nibble, EncodedAs (.addI x) (0xF01E + 256 * x.toNat) ∧
  ∀ s : State, ∃ t, exec (.addI x) s = .next t ∧ t.i.toNat = (s.i.toNat + (s.reg x).toNat) % 65536 ∧
    KeepsAllBut s t [.index]

/-- R143 where the three bytes lie in memory: the decimal digits at `I`, `I+1`, `I+2`, every other byte and all else
unchanged. The condition is D8's. -/
def Obligations.BcdStoresThreeDigits : Prop :=
  ∀ x : Nibble, EncodedAs (.ldB x) (0xF033 + 256 * x.toNat) ∧
  ∀ s : State, s.i.toNat + 2 ≤ 4095 → ∃ t, exec (.ldB x) s = .next t ∧
    (t.byteAt s.i.toNat).toNat = (s.reg x).toNat / 100 ∧
    (t.byteAt (s.i.toNat + 1)).toNat = (s.reg x).toNat / 10 % 10 ∧
    (t.byteAt (s.i.toNat + 2)).toNat = (s.reg x).toNat % 10 ∧
    KeepsBytesOutside s t s.i.toNat 3 ∧ KeepsAllBut s t [.mem]

/-- R144 where the bytes lie in memory: `V[0]` to `V[x]` at `I` upward, `I` moved past them, every other byte and all else
unchanged. The condition is D8's. -/
def Obligations.StoreRegistersThroughI : Prop :=
  ∀ x : Nibble, EncodedAs (.stRegs x) (0xF055 + 256 * x.toNat) ∧
  ∀ s : State, s.i.toNat + x.toNat ≤ 4095 → ∃ t, exec (.stRegs x) s = .next t ∧
    (∀ k : Nibble, k.toNat ≤ x.toNat → t.byteAt (s.i.toNat + k.toNat) = s.reg k) ∧
    t.i.toNat = s.i.toNat + x.toNat + 1 ∧
    KeepsBytesOutside s t s.i.toNat (x.toNat + 1) ∧ KeepsAllBut s t [.mem, .index]

/-- R145 where the bytes lie in memory: `V[0]` to `V[x]` loaded from `I` upward, `I` moved past them, the registers above
`x` and all else unchanged. The condition is D8's. -/
def Obligations.LoadRegistersThroughI : Prop :=
  ∀ x : Nibble, EncodedAs (.ldRegs x) (0xF065 + 256 * x.toNat) ∧
  ∀ s : State, s.i.toNat + x.toNat ≤ 4095 → ∃ t, exec (.ldRegs x) s = .next t ∧
    (∀ k : Nibble, t.reg k = if k.toNat ≤ x.toNat then s.byteAt (s.i.toNat + k.toNat) else s.reg k) ∧
    t.i.toNat = s.i.toNat + x.toNat + 1 ∧ KeepsAllBut s t [.regs, .index]

/-- The round trip of R145 (S5): what `Fx55` stored, `Fx65` from the same `I` loads back, into any registers. -/
def Obligations.StoreThenLoadRestoresRegisters : Prop :=
  ∀ (x : Nibble) (s t s' : State), s.i.toNat + x.toNat ≤ 4095 → exec (.stRegs x) s = .next t →
    Keeps t s' .mem → s'.i = s.i →
    ∃ u, exec (.ldRegs x) s' = .next u ∧ (∀ k : Nibble, k.toNat ≤ x.toNat → u.reg k = s.reg k) ∧
      t.i.toNat = s.i.toNat + x.toNat + 1 ∧ u.i.toNat = s.i.toNat + x.toNat + 1

/-- R173: an access whose last byte lies above 4095 takes `DataBounds(I)` before any effect. Rests on D8 and D24 (for
`Dxyn` the clipped rows count). -/
def Obligations.AccessAboveMemoryTakesDataBounds : Prop :=
  ∀ s : State,
    (∀ x : Nibble, 4095 < s.i.toNat + 2 → ∃ t, exec (.ldB x) s = .next t ∧
      TakesFault s t .dataBounds (0xF033 + 256 * x.toNat) s.i.toNat) ∧
    (∀ x : Nibble, 4095 < s.i.toNat + x.toNat →
      (∃ t, exec (.stRegs x) s = .next t ∧ TakesFault s t .dataBounds (0xF055 + 256 * x.toNat) s.i.toNat) ∧
      (∃ t, exec (.ldRegs x) s = .next t ∧ TakesFault s t .dataBounds (0xF065 + 256 * x.toNat) s.i.toNat)) ∧
    (∀ x y n : Nibble, 1 ≤ n.toNat → 4095 < s.i.toNat + n.toNat - 1 → ∃ t, exec (.drw x y n) s = .next t ∧
      TakesFault s t .dataBounds (0xD000 + 256 * x.toNat + 16 * y.toNat + n.toNat) s.i.toNat)

/-- R63 for `Fx55`: a word whose two bytes it stores at `pc` and `pc + 1` is the very next word fetched. The rule is derived.
The stores of `Fx33`, and one over a single byte of the word, are not said here: for them it follows from
BcdStoresThreeDigits, StoreRegistersThroughI and StepRunsTheDecodedInstruction. -/
def Obligations.StoredWordIsFetchedNext : Prop :=
  ∀ (x k k' : Nibble) (s t : State), s.i.toNat + x.toNat ≤ 4095 → exec (.stRegs x) s = .next t →
    k'.toNat = k.toNat + 1 → k'.toNat ≤ x.toNat → t.pc.toNat = s.i.toNat + k.toNat →
    t.canFetch = true ∧ t.fetchWord.toNat = 256 * (s.reg k).toNat + (s.reg k').toNat

/-! ## Display (44_display) -/

/-- R150: every pixel dark, nothing else changed, VF included. That all 16 bits are compared is D6's. -/
def Obligations.ClsDarkensEveryPixel : Prop :=
  EncodedAs .cls 0x00E0 ∧
  ∀ s : State, ∃ t, exec .cls s = .next t ∧ (∀ r c, t.pixel r c = false) ∧ KeepsAllBut s t [.screen]

/-- R151 where the sprite lies in memory or is empty: every pixel is XORed with the sprite's bit over it (`spritePixel`),
and VF is 1 exactly when some lit pixel went dark. Rests on D4 (bit order, log 4), D8 and D24. -/
def Obligations.DrwXorsSpriteAndReportsCollision : Prop :=
  ∀ x y n : Nibble, EncodedAs (.drw x y n) (0xD000 + 256 * x.toNat + 16 * y.toNat + n.toNat) ∧
  ∀ s : State, n.toNat = 0 ∨ s.i.toNat + n.toNat - 1 ≤ 4095 → ∃ t, exec (.drw x y n) s = .next t ∧
    (∀ r c, t.pixel r c = (s.pixel r c ^^ spritePixel s x y n r c)) ∧
    ((∃ r c, s.pixel r c = true ∧ spritePixel s x y n r c = true) → t.reg 0xF = 1) ∧
    ((∀ r c, ¬ (s.pixel r c = true ∧ spritePixel s x y n r c = true)) → t.reg 0xF = 0) ∧
    KeepsRegsBut s t [0xF] ∧ KeepsAllBut s t [.regs, .screen]

/-- R153: the same sprite drawn again at the same place restores the screen, and collides exactly when the first drawing
left one of its visible set bits lit. The rule is derived; D4, D8, D24 as above. -/
def Obligations.DrawingTwiceRestoresTheScreen : Prop :=
  ∀ (x y n : Nibble) (s t s' : State), n.toNat = 0 ∨ s.i.toNat + n.toNat - 1 ≤ 4095 →
    exec (.drw x y n) s = .next t → Keeps t s' .screen → Keeps s s' .mem → s'.i = s.i →
    s'.reg x = s.reg x → s'.reg y = s.reg y →
    ∃ u, exec (.drw x y n) s' = .next u ∧ (∀ r c, u.pixel r c = s.pixel r c) ∧
      (u.reg 0xF = 1 ↔ ∃ r c, spritePixel s x y n r c = true ∧ t.pixel r c = true)

/-! ## Keypad and timers (45_keypad_and_timers) -/

/-- R160, R161 for a key number 0 to 15: the skips on a key. The condition is D10's. -/
def Obligations.KeySkips : Prop :=
  ∀ x : Nibble, EncodedAs (.skp x) (0xE09E + 256 * x.toNat) ∧ EncodedAs (.sknp x) (0xE0A1 + 256 * x.toNat) ∧
  ∀ (s : State) (k : Fin 16), (s.reg x).toNat = k.val →
    (∃ t, exec (.skp x) s = .next t ∧ t.pc = (if s.keys[k] = true then s.pc + 2 else s.pc) ∧ KeepsAllBut s t [.pc]) ∧
    (∃ t, exec (.sknp x) s = .next t ∧ t.pc = (if s.keys[k] = true then s.pc else s.pc + 2) ∧ KeepsAllBut s t [.pc])

/-- R176: a key number above 15 takes `KeyIndex`, no skip. Rests on D10. -/
def Obligations.KeyNumberAbove15TakesKeyIndex : Prop :=
  ∀ (x : Nibble) (s : State), 15 < (s.reg x).toNat →
    (∃ t, exec (.skp x) s = .next t ∧ TakesFault s t .keyIndex (0xE09E + 256 * x.toNat) (s.reg x).toNat) ∧
    (∃ t, exec (.sknp x) s = .next t ∧ TakesFault s t .keyIndex (0xE0A1 + 256 * x.toNat) (s.reg x).toNat)

/-- R162, the effective behaviour it states: some key down, the highest is recorded and the step waits; all keys up with a
live record, its key goes to `V[x]` and the record is spent; all up without one, the step waits. Rests on D13. -/
def Obligations.KeyWaitCompletesOnRelease : Prop :=
  ∀ x : Nibble, EncodedAs (.ldVxK x) (0xF00A + 256 * x.toNat) ∧
  ∀ s : State,
    (∀ k : Fin 16, s.keys[k] = true → (∀ j : Fin 16, k < j → s.keys[j] = false) →
      ∃ t, exec (.ldVxK x) s = .next t ∧ t.lkKey.toNat = k.val ∧ t.lkPressed = true ∧ t.pc = s.pc - 2 ∧
        KeepsAllBut s t [.pc, .keyRecord]) ∧
    ((∀ k : Fin 16, s.keys[k] = false) → s.lkPressed = true →
      ∃ t, exec (.ldVxK x) s = .next t ∧ (t.reg x).toNat = s.lkKey.toNat ∧ t.lkPressed = false ∧
        t.lkKey = s.lkKey ∧ KeepsRegsBut s t [x] ∧ KeepsAllBut s t [.regs, .keyRecord]) ∧
    ((∀ k : Fin 16, s.keys[k] = false) → s.lkPressed = false →
      ∃ t, exec (.ldVxK x) s = .next t ∧ t.pc = s.pc - 2 ∧ KeepsAllBut s t [.pc])

/-- R162, R197: a step on `Fx0A` that sees keys down waits on the spot; once the host has released all keys, the next step
ends the wait with the highest of them in `V[x]`. The host's release is the premise R197 asks for. Rests on D13. -/
def Obligations.PressThenReleaseEndsTheKeyWait : Prop :=
  ∀ (s : State) (x : Nibble) (k : Fin 16), s.fault = .success → s.pc.toNat ≤ 0x0FFE →
    decode s.fetchWord = .ok (.ldVxK x) → s.keys[k] = true → (∀ j : Fin 16, k < j → s.keys[j] = false) →
    ∃ t u, step s = .next t ∧ KeepsAllBut s t [.keyRecord, .report] ∧
      step (t.setKeys (Vector.replicate 16 false)) = .next u ∧ (u.reg x).toNat = k.val ∧ u.pc = s.pc + 2 ∧
      u.lkPressed = false ∧ KeepsRegsBut s u [x] ∧ KeepsAllBut s u [.regs, .pc, .keys, .keyRecord, .report]

/-- R163, R164, R165: `DT` to `V[x]`, `V[x]` to `DT`, `V[x]` to `ST`. Rests on D14 (which opcode moves what, log 13). -/
def Obligations.TimerMoves : Prop :=
  ∀ x : Nibble,
    EncodedAs (.ldVxDt x) (0xF007 + 256 * x.toNat) ∧ EncodedAs (.ldDtVx x) (0xF015 + 256 * x.toNat) ∧
    EncodedAs (.ldStVx x) (0xF018 + 256 * x.toNat) ∧
    ∀ s : State,
      (∃ t, exec (.ldVxDt x) s = .next t ∧ t.reg x = s.dt ∧ KeepsRegsBut s t [x] ∧ KeepsAllBut s t [.regs]) ∧
      (∃ t, exec (.ldDtVx x) s = .next t ∧ t.dt = s.reg x ∧ KeepsAllBut s t [.delay]) ∧
      (∃ t, exec (.ldStVx x) s = .next t ∧ t.st = s.reg x ∧ (t.tone = true ↔ s.reg x ≠ 0) ∧ KeepsAllBut s t [.sound])

/-! ## The whole machine -/

/-- R37: each instruction changes only the elements the access table gives it (`writesOf`); in particular none writes the
key latches, the framebuffer is changed only by `00E0` and `Dxyn`, memory only by `Fx33` and `Fx55` (R29, R65, R154). The
table is derived. -/
def Obligations.InstructionsWriteOnlyTheirElements : Prop :=
  ∀ (i : Instr) (s t : State), exec i s = .next t → KeepsAllBut s t (writesOf i)

/-- R28, R182: no instruction reads `ST`, and no step reads the report: two states that differ only in them step to states
that differ at most in `ST`, and there only in the value that was kept. The rules are derived; the report is log 2's. -/
def Obligations.NoStepReadsTheSoundTimer : Prop :=
  ∀ (s t : State) (v : Byte) (o : Report), step s = .next t →
    ∃ u, step { s with st := v, out := o } = .next u ∧ KeepsAllBut t u [.sound] ∧
      ((u.st = v ∧ t.st = s.st) ∨ u.st = t.st)

/-- Every step keeps the canonical form of memory (the model's own, log 10). -/
def Obligations.StepKeepsMemoryCanonical : Prop :=
  ∀ s t : State, s.mem.wf = true → step s = .next t → t.mem.wf = true

/-- R24, its derived bounds: every step keeps `pc` at most 0x10FE and every stack entry at most 0x1000, so that the modulo
of the `pc` arithmetic never takes effect. -/
def Obligations.StepKeepsPcAndStackBounded : Prop :=
  ∀ s t : State, PcBounded s → step s = .next t → PcBounded t

/-- R32, R170, R180: every step keeps the fault latch consistent with the state that raised it, and the report with the
latch. Rests on D17, D18 and log 1, 7. -/
def Obligations.StepKeepsLatchAndReportSound : Prop :=
  ∀ s t : State, LatchSound s → ReportSound s → step s = .next t → LatchSound t ∧ ReportSound t

/-- The invariant holds right after reset. Its clause on memory is the model's own canonical form (log 10), its clause on the
report the model's field (log 2); the rest is the table of R36, the latch in it D18's. -/
def Obligations.ResetMeetsTheInvariant : Prop := Inv State.reset ∧ Running State.reset

/-- In every state the host can bring the core to, by any program and any interleaving of `SetKeys` and `Tick` with the steps
(R195), the whole invariant holds. Its clause on memory is the model's own canonical form (log 10), its clause on the latched
word rests on log 7, the latch and the report on D17, D18 and log 1 and 2, the host's moves on D20 and log 6. -/
def Obligations.ReachableStatesMeetTheInvariant : Prop := ∀ s : State, Reachable s → Inv s
end

