-- ==== Sys2Proof/Laws/Memory.lean ====
section
/-! SUPPORT. The laws of memory (spec 20_memory R56, R60): a read after a write, and that every operation keeps the
canonical form. -/

namespace Sys2Proof.Machine

theorem Memory.read_list (m : Memory) (a c : Nat) (w : Byte) :
    (m.list a w).read c = if c = a then w else m.read c := by
  induction m with
  | nil => by_cases h : c = a <;> simp [Memory.list, Memory.read, h]
  | cons e m ih =>
    obtain ⟨b, u⟩ := e
    unfold Memory.list
    split
    · by_cases h : c = a <;> simp [Memory.read, h]
    · split
      · rename_i hab
        by_cases h : c = a <;> simp [Memory.read, h, ← hab]
      · rename_i h1 h2
        simp only [Memory.read, ih]
        by_cases hb : c = b
        · subst hb; simp [Ne.symm h2]
        · simp [hb]

theorem Memory.read_unlist (m : Memory) (a c : Nat) :
    (m.unlist a).read c = if c = a then resetByte a else m.read c := by
  unfold Memory.unlist
  induction m with
  | nil => by_cases h : c = a <;> simp [Memory.read, h]
  | cons e m ih =>
    obtain ⟨b, u⟩ := e
    by_cases hb : b = a
    · subst hb
      rw [List.filter_cons_of_neg (by simp), ih]
      by_cases h : c = b <;> simp [Memory.read, h]
    · rw [List.filter_cons_of_pos (by simpa using hb)]
      simp only [Memory.read, ih]
      by_cases h : c = b
      · subst h; simp [hb]
      · simp [h]

/-- A read after a write of a byte of memory (R56). -/
theorem Memory.read_write (m : Memory) (a c : Nat) (w : Byte) (ha : a < 4096) :
    (m.write a w).read c = if c = a then w else m.read c := by
  unfold Memory.write
  rw [if_neg (by simp [Config.memSize]; omega)]
  split
  · rename_i h; rw [Memory.read_unlist, h]
  · rw [Memory.read_list]

/-- A write leaves every other address alone, wherever it goes. -/
theorem Memory.read_write_other (m : Memory) {a c : Nat} (w : Byte) (h : c ≠ a) :
    (m.write a w).read c = m.read c := by
  by_cases ha : a < 4096
  · rw [Memory.read_write _ _ _ _ ha, if_neg h]
  · unfold Memory.write; rw [if_pos (by simp [Config.memSize]; omega)]

@[simp] theorem Memory.readBytes_length (m : Memory) (a n : Nat) : (m.readBytes a n).length = n := by
  induction n generalizing a with
  | zero => rfl
  | succ n ih => simp [Memory.readBytes, ih]

theorem Memory.readBytes_getD (m : Memory) (a n k : Nat) (h : k < n) : (m.readBytes a n).getD k 0 = m.read (a + k) := by
  induction n generalizing a k with
  | zero => omega
  | succ n ih =>
    rw [Memory.readBytes]
    cases k with
    | zero => rfl
    | succ k => rw [List.getD_cons_succ, ih _ _ (by omega)]; congr 1; omega

/-- A read after writing a block of bytes that lies in memory. -/
theorem Memory.read_writeBytes (m : Memory) (a c : Nat) (ws : List Byte) (h : a + ws.length ≤ 4096) :
    (m.writeBytes a ws).read c = if a ≤ c ∧ c < a + ws.length then ws.getD (c - a) 0 else m.read c := by
  induction ws generalizing m a with
  | nil => simp [Memory.writeBytes]
  | cons w ws ih =>
    simp only [List.length_cons] at h
    rw [Memory.writeBytes, ih _ _ (by omega), Memory.read_write _ _ _ _ (by omega), List.length_cons]
    by_cases h1 : c = a
    · subst h1
      rw [if_neg (by omega), if_pos rfl, if_pos (by omega)]
      simp
    · by_cases h2 : a ≤ c ∧ c < a + (ws.length + 1)
      · rw [if_pos (by omega), if_pos h2]
        obtain ⟨j, hj⟩ : ∃ j, c - a = j + 1 := ⟨c - a - 1, by omega⟩
        rw [hj, List.getD_cons_succ]
        congr 1; omega
      · rw [if_neg (by omega), if_neg h1, if_neg h2]

/-! ### The canonical form -/

theorem Memory.wfFrom_mono {lo lo' : Nat} (h : lo' ≤ lo) {m : Memory} (hm : Memory.wfFrom lo m = true) :
    Memory.wfFrom lo' m = true := by
  cases m with
  | nil => rfl
  | cons e m =>
    obtain ⟨b, u⟩ := e
    simp only [Memory.wfFrom, Bool.and_eq_true, decide_eq_true_eq] at hm ⊢
    exact ⟨⟨⟨by omega, hm.1.1.2⟩, hm.1.2⟩, hm.2⟩

theorem Memory.wfFrom_list {lo a : Nat} {w : Byte} (m : Memory) (hlo : lo ≤ a) (ha : a < 4096) (hw : w ≠ resetByte a)
    (hm : Memory.wfFrom lo m = true) : Memory.wfFrom lo (m.list a w) = true := by
  induction m generalizing lo with
  | nil => simp [Memory.list, Memory.wfFrom, hlo, ha, hw, Config.memSize]
  | cons e m ih =>
    obtain ⟨b, u⟩ := e
    simp only [Memory.wfFrom, Bool.and_eq_true, decide_eq_true_eq] at hm
    unfold Memory.list
    split
    · rename_i h
      simp only [Memory.wfFrom, Bool.and_eq_true, decide_eq_true_eq]
      exact ⟨⟨⟨hlo, ha⟩, hw⟩, ⟨⟨by omega, hm.1.1.2⟩, hm.1.2⟩, hm.2⟩
    · split
      · rename_i _ h
        subst h
        simp only [Memory.wfFrom, Bool.and_eq_true, decide_eq_true_eq]
        exact ⟨⟨⟨hlo, ha⟩, hw⟩, hm.2⟩
      · simp only [Memory.wfFrom, Bool.and_eq_true, decide_eq_true_eq]
        exact ⟨hm.1, ih (by omega) hm.2⟩

theorem Memory.wfFrom_unlist {lo a : Nat} (m : Memory) (hm : Memory.wfFrom lo m = true) :
    Memory.wfFrom lo (m.unlist a) = true := by
  unfold Memory.unlist
  induction m generalizing lo with
  | nil => rfl
  | cons e m ih =>
    obtain ⟨b, u⟩ := e
    simp only [Memory.wfFrom, Bool.and_eq_true, decide_eq_true_eq] at hm
    by_cases hb : b = a
    · rw [List.filter_cons_of_neg (by simpa using hb)]
      exact ih (Memory.wfFrom_mono (by omega) hm.2)
    · rw [List.filter_cons_of_pos (by simpa using hb)]
      simp only [Memory.wfFrom, Bool.and_eq_true, decide_eq_true_eq]
      exact ⟨hm.1, ih hm.2⟩

/-- A write keeps the canonical form. -/
theorem Memory.wf_write {m : Memory} (a : Nat) (w : Byte) (hm : m.wf = true) : (m.write a w).wf = true := by
  unfold Memory.wf Memory.write at *
  split
  · exact hm
  · rename_i h
    split
    · exact Memory.wfFrom_unlist m hm
    · rename_i hw
      exact Memory.wfFrom_list m (Nat.zero_le _) (by simp [Config.memSize] at h; omega) hw hm

/-- A block write keeps the canonical form. -/
theorem Memory.wf_writeBytes {m : Memory} (a : Nat) (ws : List Byte) (hm : m.wf = true) :
    (m.writeBytes a ws).wf = true := by
  induction ws generalizing m a with
  | nil => exact hm
  | cons w ws ih => exact ih _ (Memory.wf_write a w hm)

/-- The memory right after reset is in canonical form. -/
theorem Memory.wf_reset : State.reset.mem.wf = true := rfl

/-- Canonical memories that read the same at every address are the same data. -/
theorem Memory.wfFrom_ext {lo : Nat} {m m' : Memory} (hm : Memory.wfFrom lo m = true) (hm' : Memory.wfFrom lo m' = true)
    (h : ∀ a, lo ≤ a → m.read a = m'.read a) : m = m' := by
  have below : ∀ (lo : Nat) (m : Memory) (a : Nat), Memory.wfFrom lo m = true → a < lo → m.read a = resetByte a := by
    intro lo m
    induction m generalizing lo with
    | nil => intros; rfl
    | cons e m ih =>
      intro a hm ha
      obtain ⟨b, u⟩ := e
      simp only [Memory.wfFrom, Bool.and_eq_true, decide_eq_true_eq] at hm
      rw [Memory.read, if_neg (by omega)]
      exact ih _ a hm.2 (by omega)
  induction m generalizing lo m' with
  | nil =>
    cases m' with
    | nil => rfl
    | cons e' m' =>
      obtain ⟨b', u'⟩ := e'
      simp only [Memory.wfFrom, Bool.and_eq_true, decide_eq_true_eq] at hm'
      have := h b' hm'.1.1.1
      simp [Memory.read] at this
      exact absurd this.symm hm'.1.2
  | cons e m ih =>
    obtain ⟨b, u⟩ := e
    simp only [Memory.wfFrom, Bool.and_eq_true, decide_eq_true_eq] at hm
    cases m' with
    | nil =>
      have := h b hm.1.1.1
      simp [Memory.read] at this
      exact absurd this hm.1.2
    | cons e' m' =>
      obtain ⟨b', u'⟩ := e'
      simp only [Memory.wfFrom, Bool.and_eq_true, decide_eq_true_eq] at hm'
      rcases Nat.lt_trichotomy b b' with hlt | heq | hgt
      · have h1 := h b hm.1.1.1
        rw [Memory.read, if_pos rfl, Memory.read, if_neg (by omega), below _ m' b hm'.2 (by omega)] at h1
        exact absurd h1 hm.1.2
      · subst heq
        have h1 := h b hm.1.1.1
        rw [Memory.read, if_pos rfl, Memory.read, if_pos rfl] at h1
        subst h1
        congr 1
        refine ih hm.2 hm'.2 fun a ha => ?_
        have h2 := h a (by omega)
        rwa [Memory.read, if_neg (by omega), Memory.read, if_neg (by omega)] at h2
      · have h1 := h b' hm'.1.1.1
        rw [Memory.read, if_neg (by omega), below _ m b' hm.2 (by omega), Memory.read, if_pos rfl] at h1
        exact absurd h1.symm hm'.1.2

theorem Memory.ext_of_wf {m m' : Memory} (hm : m.wf = true) (hm' : m'.wf = true) (h : ∀ a, m.read a = m'.read a) :
    m = m' := Memory.wfFrom_ext hm hm' fun a _ => h a

end Sys2Proof.Machine
end

