-- ==== Sys2Proof/Laws/State.lean ====
section
/-! SUPPORT. One lemma per field per named update of the state, so that no proof unfolds a record update. -/

namespace Sys2Proof.Machine

/-! ### `setReg` -/

@[simp] theorem State.setReg_i (s : State) (x : Nibble) (b : Byte) : (s.setReg x b).i = s.i := rfl
@[simp] theorem State.setReg_pc (s : State) (x : Nibble) (b : Byte) : (s.setReg x b).pc = s.pc := rfl
@[simp] theorem State.setReg_sp (s : State) (x : Nibble) (b : Byte) : (s.setReg x b).sp = s.sp := rfl
@[simp] theorem State.setReg_stack (s : State) (x : Nibble) (b : Byte) : (s.setReg x b).stack = s.stack := rfl
@[simp] theorem State.setReg_dt (s : State) (x : Nibble) (b : Byte) : (s.setReg x b).dt = s.dt := rfl
@[simp] theorem State.setReg_st (s : State) (x : Nibble) (b : Byte) : (s.setReg x b).st = s.st := rfl
@[simp] theorem State.setReg_keys (s : State) (x : Nibble) (b : Byte) : (s.setReg x b).keys = s.keys := rfl
@[simp] theorem State.setReg_lkKey (s : State) (x : Nibble) (b : Byte) : (s.setReg x b).lkKey = s.lkKey := rfl
@[simp] theorem State.setReg_lkPressed (s : State) (x : Nibble) (b : Byte) : (s.setReg x b).lkPressed = s.lkPressed := rfl
@[simp] theorem State.setReg_screen (s : State) (x : Nibble) (b : Byte) : (s.setReg x b).screen = s.screen := rfl
@[simp] theorem State.setReg_fault (s : State) (x : Nibble) (b : Byte) : (s.setReg x b).fault = s.fault := rfl
@[simp] theorem State.setReg_faultIw (s : State) (x : Nibble) (b : Byte) : (s.setReg x b).faultIw = s.faultIw := rfl
@[simp] theorem State.setReg_faultInfo (s : State) (x : Nibble) (b : Byte) : (s.setReg x b).faultInfo = s.faultInfo := rfl
@[simp] theorem State.setReg_mem (s : State) (x : Nibble) (b : Byte) : (s.setReg x b).mem = s.mem := rfl
@[simp] theorem State.setReg_out (s : State) (x : Nibble) (b : Byte) : (s.setReg x b).out = s.out := rfl
@[simp] theorem State.setReg_rndDraws (s : State) (x : Nibble) (b : Byte) : (s.setReg x b).rndDraws = s.rndDraws := rfl

/-! ### `setPc` -/

@[simp] theorem State.setPc_v (s : State) (w : Word) : (s.setPc w).v = s.v := rfl
@[simp] theorem State.setPc_i (s : State) (w : Word) : (s.setPc w).i = s.i := rfl
@[simp] theorem State.setPc_pc (s : State) (w : Word) : (s.setPc w).pc = w := rfl
@[simp] theorem State.setPc_sp (s : State) (w : Word) : (s.setPc w).sp = s.sp := rfl
@[simp] theorem State.setPc_stack (s : State) (w : Word) : (s.setPc w).stack = s.stack := rfl
@[simp] theorem State.setPc_dt (s : State) (w : Word) : (s.setPc w).dt = s.dt := rfl
@[simp] theorem State.setPc_st (s : State) (w : Word) : (s.setPc w).st = s.st := rfl
@[simp] theorem State.setPc_keys (s : State) (w : Word) : (s.setPc w).keys = s.keys := rfl
@[simp] theorem State.setPc_lkKey (s : State) (w : Word) : (s.setPc w).lkKey = s.lkKey := rfl
@[simp] theorem State.setPc_lkPressed (s : State) (w : Word) : (s.setPc w).lkPressed = s.lkPressed := rfl
@[simp] theorem State.setPc_screen (s : State) (w : Word) : (s.setPc w).screen = s.screen := rfl
@[simp] theorem State.setPc_fault (s : State) (w : Word) : (s.setPc w).fault = s.fault := rfl
@[simp] theorem State.setPc_faultIw (s : State) (w : Word) : (s.setPc w).faultIw = s.faultIw := rfl
@[simp] theorem State.setPc_faultInfo (s : State) (w : Word) : (s.setPc w).faultInfo = s.faultInfo := rfl
@[simp] theorem State.setPc_mem (s : State) (w : Word) : (s.setPc w).mem = s.mem := rfl
@[simp] theorem State.setPc_out (s : State) (w : Word) : (s.setPc w).out = s.out := rfl
@[simp] theorem State.setPc_rndDraws (s : State) (w : Word) : (s.setPc w).rndDraws = s.rndDraws := rfl

/-! ### `setI` -/

@[simp] theorem State.setI_v (s : State) (w : Word) : (s.setI w).v = s.v := rfl
@[simp] theorem State.setI_i (s : State) (w : Word) : (s.setI w).i = w := rfl
@[simp] theorem State.setI_pc (s : State) (w : Word) : (s.setI w).pc = s.pc := rfl
@[simp] theorem State.setI_sp (s : State) (w : Word) : (s.setI w).sp = s.sp := rfl
@[simp] theorem State.setI_stack (s : State) (w : Word) : (s.setI w).stack = s.stack := rfl
@[simp] theorem State.setI_dt (s : State) (w : Word) : (s.setI w).dt = s.dt := rfl
@[simp] theorem State.setI_st (s : State) (w : Word) : (s.setI w).st = s.st := rfl
@[simp] theorem State.setI_keys (s : State) (w : Word) : (s.setI w).keys = s.keys := rfl
@[simp] theorem State.setI_lkKey (s : State) (w : Word) : (s.setI w).lkKey = s.lkKey := rfl
@[simp] theorem State.setI_lkPressed (s : State) (w : Word) : (s.setI w).lkPressed = s.lkPressed := rfl
@[simp] theorem State.setI_screen (s : State) (w : Word) : (s.setI w).screen = s.screen := rfl
@[simp] theorem State.setI_fault (s : State) (w : Word) : (s.setI w).fault = s.fault := rfl
@[simp] theorem State.setI_faultIw (s : State) (w : Word) : (s.setI w).faultIw = s.faultIw := rfl
@[simp] theorem State.setI_faultInfo (s : State) (w : Word) : (s.setI w).faultInfo = s.faultInfo := rfl
@[simp] theorem State.setI_mem (s : State) (w : Word) : (s.setI w).mem = s.mem := rfl
@[simp] theorem State.setI_out (s : State) (w : Word) : (s.setI w).out = s.out := rfl
@[simp] theorem State.setI_rndDraws (s : State) (w : Word) : (s.setI w).rndDraws = s.rndDraws := rfl

/-! ### `advance` -/

@[simp] theorem State.advance_v (s : State) : s.advance.v = s.v := rfl
@[simp] theorem State.advance_i (s : State) : s.advance.i = s.i := rfl
@[simp] theorem State.advance_pc (s : State) : s.advance.pc = s.pc + 2 := rfl
@[simp] theorem State.advance_sp (s : State) : s.advance.sp = s.sp := rfl
@[simp] theorem State.advance_stack (s : State) : s.advance.stack = s.stack := rfl
@[simp] theorem State.advance_dt (s : State) : s.advance.dt = s.dt := rfl
@[simp] theorem State.advance_st (s : State) : s.advance.st = s.st := rfl
@[simp] theorem State.advance_keys (s : State) : s.advance.keys = s.keys := rfl
@[simp] theorem State.advance_lkKey (s : State) : s.advance.lkKey = s.lkKey := rfl
@[simp] theorem State.advance_lkPressed (s : State) : s.advance.lkPressed = s.lkPressed := rfl
@[simp] theorem State.advance_screen (s : State) : s.advance.screen = s.screen := rfl
@[simp] theorem State.advance_fault (s : State) : s.advance.fault = s.fault := rfl
@[simp] theorem State.advance_faultIw (s : State) : s.advance.faultIw = s.faultIw := rfl
@[simp] theorem State.advance_faultInfo (s : State) : s.advance.faultInfo = s.faultInfo := rfl
@[simp] theorem State.advance_mem (s : State) : s.advance.mem = s.mem := rfl
@[simp] theorem State.advance_out (s : State) : s.advance.out = s.out := rfl
@[simp] theorem State.advance_rndDraws (s : State) : s.advance.rndDraws = s.rndDraws := rfl

/-! ### `rewind` -/

@[simp] theorem State.rewind_v (s : State) : s.rewind.v = s.v := rfl
@[simp] theorem State.rewind_i (s : State) : s.rewind.i = s.i := rfl
@[simp] theorem State.rewind_pc (s : State) : s.rewind.pc = s.pc - 2 := rfl
@[simp] theorem State.rewind_sp (s : State) : s.rewind.sp = s.sp := rfl
@[simp] theorem State.rewind_stack (s : State) : s.rewind.stack = s.stack := rfl
@[simp] theorem State.rewind_dt (s : State) : s.rewind.dt = s.dt := rfl
@[simp] theorem State.rewind_st (s : State) : s.rewind.st = s.st := rfl
@[simp] theorem State.rewind_keys (s : State) : s.rewind.keys = s.keys := rfl
@[simp] theorem State.rewind_lkKey (s : State) : s.rewind.lkKey = s.lkKey := rfl
@[simp] theorem State.rewind_lkPressed (s : State) : s.rewind.lkPressed = s.lkPressed := rfl
@[simp] theorem State.rewind_screen (s : State) : s.rewind.screen = s.screen := rfl
@[simp] theorem State.rewind_fault (s : State) : s.rewind.fault = s.fault := rfl
@[simp] theorem State.rewind_faultIw (s : State) : s.rewind.faultIw = s.faultIw := rfl
@[simp] theorem State.rewind_faultInfo (s : State) : s.rewind.faultInfo = s.faultInfo := rfl
@[simp] theorem State.rewind_mem (s : State) : s.rewind.mem = s.mem := rfl
@[simp] theorem State.rewind_out (s : State) : s.rewind.out = s.out := rfl
@[simp] theorem State.rewind_rndDraws (s : State) : s.rewind.rndDraws = s.rndDraws := rfl

/-! ### `latch` -/

@[simp] theorem State.latch_v (s : State) (c : FaultCode) (w n : Word) : (s.latch c w n).v = s.v := rfl
@[simp] theorem State.latch_i (s : State) (c : FaultCode) (w n : Word) : (s.latch c w n).i = s.i := rfl
@[simp] theorem State.latch_pc (s : State) (c : FaultCode) (w n : Word) : (s.latch c w n).pc = s.pc := rfl
@[simp] theorem State.latch_sp (s : State) (c : FaultCode) (w n : Word) : (s.latch c w n).sp = s.sp := rfl
@[simp] theorem State.latch_stack (s : State) (c : FaultCode) (w n : Word) : (s.latch c w n).stack = s.stack := rfl
@[simp] theorem State.latch_dt (s : State) (c : FaultCode) (w n : Word) : (s.latch c w n).dt = s.dt := rfl
@[simp] theorem State.latch_st (s : State) (c : FaultCode) (w n : Word) : (s.latch c w n).st = s.st := rfl
@[simp] theorem State.latch_keys (s : State) (c : FaultCode) (w n : Word) : (s.latch c w n).keys = s.keys := rfl
@[simp] theorem State.latch_lkKey (s : State) (c : FaultCode) (w n : Word) : (s.latch c w n).lkKey = s.lkKey := rfl
@[simp] theorem State.latch_lkPressed (s : State) (c : FaultCode) (w n : Word) : (s.latch c w n).lkPressed = s.lkPressed := rfl
@[simp] theorem State.latch_screen (s : State) (c : FaultCode) (w n : Word) : (s.latch c w n).screen = s.screen := rfl
@[simp] theorem State.latch_fault (s : State) (c : FaultCode) (w n : Word) : (s.latch c w n).fault = c := rfl
@[simp] theorem State.latch_faultIw (s : State) (c : FaultCode) (w n : Word) : (s.latch c w n).faultIw = w := rfl
@[simp] theorem State.latch_faultInfo (s : State) (c : FaultCode) (w n : Word) : (s.latch c w n).faultInfo = n := rfl
@[simp] theorem State.latch_mem (s : State) (c : FaultCode) (w n : Word) : (s.latch c w n).mem = s.mem := rfl
@[simp] theorem State.latch_out (s : State) (c : FaultCode) (w n : Word) : (s.latch c w n).out = s.out := rfl
@[simp] theorem State.latch_rndDraws (s : State) (c : FaultCode) (w n : Word) : (s.latch c w n).rndDraws = s.rndDraws := rfl

/-! ### `report` -/

@[simp] theorem State.report_v (s : State) (w : Word) : (s.report w).v = s.v := rfl
@[simp] theorem State.report_i (s : State) (w : Word) : (s.report w).i = s.i := rfl
@[simp] theorem State.report_pc (s : State) (w : Word) : (s.report w).pc = s.pc := rfl
@[simp] theorem State.report_sp (s : State) (w : Word) : (s.report w).sp = s.sp := rfl
@[simp] theorem State.report_stack (s : State) (w : Word) : (s.report w).stack = s.stack := rfl
@[simp] theorem State.report_dt (s : State) (w : Word) : (s.report w).dt = s.dt := rfl
@[simp] theorem State.report_st (s : State) (w : Word) : (s.report w).st = s.st := rfl
@[simp] theorem State.report_keys (s : State) (w : Word) : (s.report w).keys = s.keys := rfl
@[simp] theorem State.report_lkKey (s : State) (w : Word) : (s.report w).lkKey = s.lkKey := rfl
@[simp] theorem State.report_lkPressed (s : State) (w : Word) : (s.report w).lkPressed = s.lkPressed := rfl
@[simp] theorem State.report_screen (s : State) (w : Word) : (s.report w).screen = s.screen := rfl
@[simp] theorem State.report_fault (s : State) (w : Word) : (s.report w).fault = s.fault := rfl
@[simp] theorem State.report_faultIw (s : State) (w : Word) : (s.report w).faultIw = s.faultIw := rfl
@[simp] theorem State.report_faultInfo (s : State) (w : Word) : (s.report w).faultInfo = s.faultInfo := rfl
@[simp] theorem State.report_mem (s : State) (w : Word) : (s.report w).mem = s.mem := rfl
@[simp] theorem State.report_out (s : State) (w : Word) : (s.report w).out = (if s.fault = .success then ⟨.success, w, 0⟩ else ⟨s.fault, s.faultIw, s.faultInfo⟩) := rfl
@[simp] theorem State.report_rndDraws (s : State) (w : Word) : (s.report w).rndDraws = s.rndDraws := rfl

/-! ### `sampled` -/

@[simp] theorem State.sampled_v (s : State) : s.sampled.v = s.v := rfl
@[simp] theorem State.sampled_i (s : State) : s.sampled.i = s.i := rfl
@[simp] theorem State.sampled_pc (s : State) : s.sampled.pc = s.pc := rfl
@[simp] theorem State.sampled_sp (s : State) : s.sampled.sp = s.sp := rfl
@[simp] theorem State.sampled_stack (s : State) : s.sampled.stack = s.stack := rfl
@[simp] theorem State.sampled_dt (s : State) : s.sampled.dt = s.dt := rfl
@[simp] theorem State.sampled_st (s : State) : s.sampled.st = s.st := rfl
@[simp] theorem State.sampled_keys (s : State) : s.sampled.keys = s.keys := rfl
@[simp] theorem State.sampled_lkKey (s : State) : s.sampled.lkKey = s.lkKey := rfl
@[simp] theorem State.sampled_lkPressed (s : State) : s.sampled.lkPressed = s.lkPressed := rfl
@[simp] theorem State.sampled_screen (s : State) : s.sampled.screen = s.screen := rfl
@[simp] theorem State.sampled_fault (s : State) : s.sampled.fault = s.fault := rfl
@[simp] theorem State.sampled_faultIw (s : State) : s.sampled.faultIw = s.faultIw := rfl
@[simp] theorem State.sampled_faultInfo (s : State) : s.sampled.faultInfo = s.faultInfo := rfl
@[simp] theorem State.sampled_mem (s : State) : s.sampled.mem = s.mem := rfl
@[simp] theorem State.sampled_out (s : State) : s.sampled.out = s.out := rfl
@[simp] theorem State.sampled_rndDraws (s : State) : s.sampled.rndDraws = s.rndDraws + 1 := rfl

/-! ### `setKeys` -/

@[simp] theorem State.setKeys_v (s : State) (k : Vector Bool 16) : (s.setKeys k).v = s.v := rfl
@[simp] theorem State.setKeys_i (s : State) (k : Vector Bool 16) : (s.setKeys k).i = s.i := rfl
@[simp] theorem State.setKeys_pc (s : State) (k : Vector Bool 16) : (s.setKeys k).pc = s.pc := rfl
@[simp] theorem State.setKeys_sp (s : State) (k : Vector Bool 16) : (s.setKeys k).sp = s.sp := rfl
@[simp] theorem State.setKeys_stack (s : State) (k : Vector Bool 16) : (s.setKeys k).stack = s.stack := rfl
@[simp] theorem State.setKeys_dt (s : State) (k : Vector Bool 16) : (s.setKeys k).dt = s.dt := rfl
@[simp] theorem State.setKeys_st (s : State) (k : Vector Bool 16) : (s.setKeys k).st = s.st := rfl
@[simp] theorem State.setKeys_keys (s : State) (k : Vector Bool 16) : (s.setKeys k).keys = k := rfl
@[simp] theorem State.setKeys_lkKey (s : State) (k : Vector Bool 16) : (s.setKeys k).lkKey = s.lkKey := rfl
@[simp] theorem State.setKeys_lkPressed (s : State) (k : Vector Bool 16) : (s.setKeys k).lkPressed = s.lkPressed := rfl
@[simp] theorem State.setKeys_screen (s : State) (k : Vector Bool 16) : (s.setKeys k).screen = s.screen := rfl
@[simp] theorem State.setKeys_fault (s : State) (k : Vector Bool 16) : (s.setKeys k).fault = s.fault := rfl
@[simp] theorem State.setKeys_faultIw (s : State) (k : Vector Bool 16) : (s.setKeys k).faultIw = s.faultIw := rfl
@[simp] theorem State.setKeys_faultInfo (s : State) (k : Vector Bool 16) : (s.setKeys k).faultInfo = s.faultInfo := rfl
@[simp] theorem State.setKeys_mem (s : State) (k : Vector Bool 16) : (s.setKeys k).mem = s.mem := rfl
@[simp] theorem State.setKeys_out (s : State) (k : Vector Bool 16) : (s.setKeys k).out = s.out := rfl
@[simp] theorem State.setKeys_rndDraws (s : State) (k : Vector Bool 16) : (s.setKeys k).rndDraws = s.rndDraws := rfl

/-! ### `tick` -/

@[simp] theorem State.tick_v (s : State) : s.tick.v = s.v := rfl
@[simp] theorem State.tick_i (s : State) : s.tick.i = s.i := rfl
@[simp] theorem State.tick_pc (s : State) : s.tick.pc = s.pc := rfl
@[simp] theorem State.tick_sp (s : State) : s.tick.sp = s.sp := rfl
@[simp] theorem State.tick_stack (s : State) : s.tick.stack = s.stack := rfl
@[simp] theorem State.tick_dt (s : State) : s.tick.dt = countDown s.dt := rfl
@[simp] theorem State.tick_st (s : State) : s.tick.st = countDown s.st := rfl
@[simp] theorem State.tick_keys (s : State) : s.tick.keys = s.keys := rfl
@[simp] theorem State.tick_lkKey (s : State) : s.tick.lkKey = s.lkKey := rfl
@[simp] theorem State.tick_lkPressed (s : State) : s.tick.lkPressed = s.lkPressed := rfl
@[simp] theorem State.tick_screen (s : State) : s.tick.screen = s.screen := rfl
@[simp] theorem State.tick_fault (s : State) : s.tick.fault = s.fault := rfl
@[simp] theorem State.tick_faultIw (s : State) : s.tick.faultIw = s.faultIw := rfl
@[simp] theorem State.tick_faultInfo (s : State) : s.tick.faultInfo = s.faultInfo := rfl
@[simp] theorem State.tick_mem (s : State) : s.tick.mem = s.mem := rfl
@[simp] theorem State.tick_out (s : State) : s.tick.out = s.out := rfl
@[simp] theorem State.tick_rndDraws (s : State) : s.tick.rndDraws = s.rndDraws := rfl

/-! ### `setRegFlag` -/

@[simp] theorem State.setRegFlag_i (s : State) (x : Nibble) (b : Byte) (f : Bool) : (s.setRegFlag x b f).i = s.i := rfl
@[simp] theorem State.setRegFlag_pc (s : State) (x : Nibble) (b : Byte) (f : Bool) : (s.setRegFlag x b f).pc = s.pc := rfl
@[simp] theorem State.setRegFlag_sp (s : State) (x : Nibble) (b : Byte) (f : Bool) : (s.setRegFlag x b f).sp = s.sp := rfl
@[simp] theorem State.setRegFlag_stack (s : State) (x : Nibble) (b : Byte) (f : Bool) : (s.setRegFlag x b f).stack = s.stack := rfl
@[simp] theorem State.setRegFlag_dt (s : State) (x : Nibble) (b : Byte) (f : Bool) : (s.setRegFlag x b f).dt = s.dt := rfl
@[simp] theorem State.setRegFlag_st (s : State) (x : Nibble) (b : Byte) (f : Bool) : (s.setRegFlag x b f).st = s.st := rfl
@[simp] theorem State.setRegFlag_keys (s : State) (x : Nibble) (b : Byte) (f : Bool) : (s.setRegFlag x b f).keys = s.keys := rfl
@[simp] theorem State.setRegFlag_lkKey (s : State) (x : Nibble) (b : Byte) (f : Bool) : (s.setRegFlag x b f).lkKey = s.lkKey := rfl
@[simp] theorem State.setRegFlag_lkPressed (s : State) (x : Nibble) (b : Byte) (f : Bool) : (s.setRegFlag x b f).lkPressed = s.lkPressed := rfl
@[simp] theorem State.setRegFlag_screen (s : State) (x : Nibble) (b : Byte) (f : Bool) : (s.setRegFlag x b f).screen = s.screen := rfl
@[simp] theorem State.setRegFlag_fault (s : State) (x : Nibble) (b : Byte) (f : Bool) : (s.setRegFlag x b f).fault = s.fault := rfl
@[simp] theorem State.setRegFlag_faultIw (s : State) (x : Nibble) (b : Byte) (f : Bool) : (s.setRegFlag x b f).faultIw = s.faultIw := rfl
@[simp] theorem State.setRegFlag_faultInfo (s : State) (x : Nibble) (b : Byte) (f : Bool) : (s.setRegFlag x b f).faultInfo = s.faultInfo := rfl
@[simp] theorem State.setRegFlag_mem (s : State) (x : Nibble) (b : Byte) (f : Bool) : (s.setRegFlag x b f).mem = s.mem := rfl
@[simp] theorem State.setRegFlag_out (s : State) (x : Nibble) (b : Byte) (f : Bool) : (s.setRegFlag x b f).out = s.out := rfl
@[simp] theorem State.setRegFlag_rndDraws (s : State) (x : Nibble) (b : Byte) (f : Bool) : (s.setRegFlag x b f).rndDraws = s.rndDraws := rfl

/-! ### `skipIf` -/

@[simp] theorem State.skipIf_v (s : State) (c : Bool) : (s.skipIf c).v = s.v := by cases c <;> rfl
@[simp] theorem State.skipIf_i (s : State) (c : Bool) : (s.skipIf c).i = s.i := by cases c <;> rfl
@[simp] theorem State.skipIf_pc (s : State) (c : Bool) : (s.skipIf c).pc = if c then s.pc + 2 else s.pc := by
  cases c <;> rfl
@[simp] theorem State.skipIf_sp (s : State) (c : Bool) : (s.skipIf c).sp = s.sp := by cases c <;> rfl
@[simp] theorem State.skipIf_stack (s : State) (c : Bool) : (s.skipIf c).stack = s.stack := by cases c <;> rfl
@[simp] theorem State.skipIf_dt (s : State) (c : Bool) : (s.skipIf c).dt = s.dt := by cases c <;> rfl
@[simp] theorem State.skipIf_st (s : State) (c : Bool) : (s.skipIf c).st = s.st := by cases c <;> rfl
@[simp] theorem State.skipIf_keys (s : State) (c : Bool) : (s.skipIf c).keys = s.keys := by cases c <;> rfl
@[simp] theorem State.skipIf_lkKey (s : State) (c : Bool) : (s.skipIf c).lkKey = s.lkKey := by cases c <;> rfl
@[simp] theorem State.skipIf_lkPressed (s : State) (c : Bool) : (s.skipIf c).lkPressed = s.lkPressed := by cases c <;> rfl
@[simp] theorem State.skipIf_screen (s : State) (c : Bool) : (s.skipIf c).screen = s.screen := by cases c <;> rfl
@[simp] theorem State.skipIf_fault (s : State) (c : Bool) : (s.skipIf c).fault = s.fault := by cases c <;> rfl
@[simp] theorem State.skipIf_faultIw (s : State) (c : Bool) : (s.skipIf c).faultIw = s.faultIw := by cases c <;> rfl
@[simp] theorem State.skipIf_faultInfo (s : State) (c : Bool) : (s.skipIf c).faultInfo = s.faultInfo := by cases c <;> rfl
@[simp] theorem State.skipIf_mem (s : State) (c : Bool) : (s.skipIf c).mem = s.mem := by cases c <;> rfl
@[simp] theorem State.skipIf_out (s : State) (c : Bool) : (s.skipIf c).out = s.out := by cases c <;> rfl
@[simp] theorem State.skipIf_rndDraws (s : State) (c : Bool) : (s.skipIf c).rndDraws = s.rndDraws := by cases c <;> rfl

/-! ### `loadRegs` -/

@[simp] theorem State.loadRegs_i (s : State) (k : Nat) (bs : List Byte) : (s.loadRegs k bs).i = s.i := by
  induction bs generalizing s k with
  | nil => rfl
  | cons b bs ih => exact ih ..
@[simp] theorem State.loadRegs_pc (s : State) (k : Nat) (bs : List Byte) : (s.loadRegs k bs).pc = s.pc := by
  induction bs generalizing s k with
  | nil => rfl
  | cons b bs ih => exact ih ..
@[simp] theorem State.loadRegs_sp (s : State) (k : Nat) (bs : List Byte) : (s.loadRegs k bs).sp = s.sp := by
  induction bs generalizing s k with
  | nil => rfl
  | cons b bs ih => exact ih ..
@[simp] theorem State.loadRegs_stack (s : State) (k : Nat) (bs : List Byte) : (s.loadRegs k bs).stack = s.stack := by
  induction bs generalizing s k with
  | nil => rfl
  | cons b bs ih => exact ih ..
@[simp] theorem State.loadRegs_dt (s : State) (k : Nat) (bs : List Byte) : (s.loadRegs k bs).dt = s.dt := by
  induction bs generalizing s k with
  | nil => rfl
  | cons b bs ih => exact ih ..
@[simp] theorem State.loadRegs_st (s : State) (k : Nat) (bs : List Byte) : (s.loadRegs k bs).st = s.st := by
  induction bs generalizing s k with
  | nil => rfl
  | cons b bs ih => exact ih ..
@[simp] theorem State.loadRegs_keys (s : State) (k : Nat) (bs : List Byte) : (s.loadRegs k bs).keys = s.keys := by
  induction bs generalizing s k with
  | nil => rfl
  | cons b bs ih => exact ih ..
@[simp] theorem State.loadRegs_lkKey (s : State) (k : Nat) (bs : List Byte) : (s.loadRegs k bs).lkKey = s.lkKey := by
  induction bs generalizing s k with
  | nil => rfl
  | cons b bs ih => exact ih ..
@[simp] theorem State.loadRegs_lkPressed (s : State) (k : Nat) (bs : List Byte) : (s.loadRegs k bs).lkPressed = s.lkPressed := by
  induction bs generalizing s k with
  | nil => rfl
  | cons b bs ih => exact ih ..
@[simp] theorem State.loadRegs_screen (s : State) (k : Nat) (bs : List Byte) : (s.loadRegs k bs).screen = s.screen := by
  induction bs generalizing s k with
  | nil => rfl
  | cons b bs ih => exact ih ..
@[simp] theorem State.loadRegs_fault (s : State) (k : Nat) (bs : List Byte) : (s.loadRegs k bs).fault = s.fault := by
  induction bs generalizing s k with
  | nil => rfl
  | cons b bs ih => exact ih ..
@[simp] theorem State.loadRegs_faultIw (s : State) (k : Nat) (bs : List Byte) : (s.loadRegs k bs).faultIw = s.faultIw := by
  induction bs generalizing s k with
  | nil => rfl
  | cons b bs ih => exact ih ..
@[simp] theorem State.loadRegs_faultInfo (s : State) (k : Nat) (bs : List Byte) : (s.loadRegs k bs).faultInfo = s.faultInfo := by
  induction bs generalizing s k with
  | nil => rfl
  | cons b bs ih => exact ih ..
@[simp] theorem State.loadRegs_mem (s : State) (k : Nat) (bs : List Byte) : (s.loadRegs k bs).mem = s.mem := by
  induction bs generalizing s k with
  | nil => rfl
  | cons b bs ih => exact ih ..
@[simp] theorem State.loadRegs_out (s : State) (k : Nat) (bs : List Byte) : (s.loadRegs k bs).out = s.out := by
  induction bs generalizing s k with
  | nil => rfl
  | cons b bs ih => exact ih ..
@[simp] theorem State.loadRegs_rndDraws (s : State) (k : Nat) (bs : List Byte) : (s.loadRegs k bs).rndDraws = s.rndDraws := by
  induction bs generalizing s k with
  | nil => rfl
  | cons b bs ih => exact ih ..

end Sys2Proof.Machine
end

