-- ==== Sys2Proof/Laws/Registers.lean ====
section
/-! SUPPORT. Reading a V register, a pixel or a byte of a state after each named update: one equation per pair. -/

namespace Sys2Proof.Machine

theorem nibble_eq_of_toNat {x y : Nibble} (h : x.toNat = y.toNat) : x = y := BitVec.eq_of_toNat_eq h

/-- A register reads back what was written; every other register is untouched (R21: none aliases another). -/
theorem State.reg_setReg (s : State) (x y : Nibble) (b : Byte) :
    (s.setReg x b).reg y = if y = x then b else s.reg y := by
  unfold State.reg State.setReg
  by_cases h : y = x
  · subst h; simp
  · have hn : x.toNat ≠ y.toNat := fun hh => h (nibble_eq_of_toNat hh.symm)
    simp [h, hn]

@[simp] theorem State.reg_setReg_same (s : State) (x : Nibble) (b : Byte) : (s.setReg x b).reg x = b := by
  simp [State.reg_setReg]

theorem State.reg_setReg_other (s : State) {x y : Nibble} (b : Byte) (h : y ≠ x) :
    (s.setReg x b).reg y = s.reg y := by
  simp [State.reg_setReg, h]

/-- The register file is determined by the sixteen registers. -/
theorem State.reg_congr {s t : State} (h : s.v = t.v) (x : Nibble) : s.reg x = t.reg x := by
  unfold State.reg; simp [h]

@[simp] theorem State.reg_setPc (s : State) (w : Word) (x : Nibble) : (s.setPc w).reg x = s.reg x := rfl
@[simp] theorem State.reg_setI (s : State) (w : Word) (x : Nibble) : (s.setI w).reg x = s.reg x := rfl
@[simp] theorem State.reg_advance (s : State) (x : Nibble) : s.advance.reg x = s.reg x := rfl
@[simp] theorem State.reg_rewind (s : State) (x : Nibble) : s.rewind.reg x = s.reg x := rfl
@[simp] theorem State.reg_sampled (s : State) (x : Nibble) : s.sampled.reg x = s.reg x := rfl
@[simp] theorem State.reg_report (s : State) (w : Word) (x : Nibble) : (s.report w).reg x = s.reg x := rfl
@[simp] theorem State.reg_latch (s : State) (c : FaultCode) (w n : Word) (x : Nibble) :
    (s.latch c w n).reg x = s.reg x := rfl
@[simp] theorem State.reg_skipIf (s : State) (c : Bool) (x : Nibble) : (s.skipIf c).reg x = s.reg x := by
  cases c <;> rfl

/-- Result first, flag second: VF ends holding the flag, also when `x = 0xF` (R133). -/
theorem State.reg_setRegFlag (s : State) (x y : Nibble) (b : Byte) (f : Bool) :
    (s.setRegFlag x b f).reg y = if y = vf then flagByte f else if y = x then b else s.reg y := by
  simp [State.setRegFlag, State.reg_setReg]

/-- After loading bytes into `V[k], V[k+1], ...`: the loaded registers hold the bytes, the others are untouched. -/
theorem State.reg_loadRegs (s : State) (k : Nat) (bs : List Byte) (hk : k + bs.length ≤ 16) (y : Nibble) :
    (s.loadRegs k bs).reg y =
      if k ≤ y.toNat ∧ y.toNat < k + bs.length then bs.getD (y.toNat - k) 0 else s.reg y := by
  induction bs generalizing s k with
  | nil => simp [State.loadRegs]
  | cons b bs ih =>
    simp only [List.length_cons] at hk
    rw [State.loadRegs, ih _ _ (by omega), State.reg_setReg]
    have hy : (y = BitVec.ofNat 4 k) ↔ y.toNat = k := by
      constructor
      · rintro rfl; simp; omega
      · intro h; apply nibble_eq_of_toNat; simp; omega
    simp only [hy, List.length_cons]
    by_cases h1 : y.toNat = k
    · rw [if_neg (by omega), if_pos h1, if_pos (by omega)]
      simp [h1]
    · by_cases h2 : k ≤ y.toNat ∧ y.toNat < k + (bs.length + 1)
      · rw [if_pos (by omega), if_pos h2]
        obtain ⟨j, hj⟩ : ∃ j, y.toNat - k = j + 1 := ⟨y.toNat - k - 1, by omega⟩
        rw [hj, List.getD_cons_succ]
        congr 1; omega
      · rw [if_neg (by omega), if_neg h1, if_neg h2]

@[simp] theorem State.pixel_setReg (s : State) (x : Nibble) (b : Byte) (r c : Nat) :
    (s.setReg x b).pixel r c = s.pixel r c := rfl

@[simp] theorem State.byteAt_setReg (s : State) (x : Nibble) (b : Byte) (a : Nat) :
    (s.setReg x b).byteAt a = s.byteAt a := rfl

theorem State.byteAt_congr {s t : State} (h : s.mem = t.mem) (a : Nat) : s.byteAt a = t.byteAt a := by
  unfold State.byteAt; rw [h]

theorem State.pixel_congr {s t : State} (h : s.screen = t.screen) (r c : Nat) : s.pixel r c = t.pixel r c := by
  unfold State.pixel; simp [h]

/-- A register of `V[0]` to `V[x]` in the list that `Fx55` stores. -/
theorem State.regsUpTo_getD (s : State) (x : Nibble) (k : Nat) (h : k ≤ x.toNat) :
    (s.regsUpTo x).getD k 0 = s.reg (BitVec.ofNat 4 k) := by
  have : k < x.toNat + 1 := by omega
  simp [State.regsUpTo, List.getD, this]

@[simp] theorem State.regsUpTo_length (s : State) (x : Nibble) : (s.regsUpTo x).length = x.toNat + 1 := by
  simp [State.regsUpTo]

end Sys2Proof.Machine
end

