-- ==== Sys2Proof/Laws/Outcomes.lean ====
section
/-! SUPPORT. What each shared operation that can take a fault answers, and what a step can do: cited instead of unfolding. -/

namespace Sys2Proof.Machine

/-- An access of `n >= 1` bytes at `I` is out of range exactly when its last byte lies above 4095 (R55). -/
theorem outOfRange_iff (i : Word) (n : Nat) : outOfRange i n = true ↔ 1 ≤ n ∧ 4096 < i.toNat + n := by
  simp [outOfRange]; omega

theorem outOfRange_eq_false_iff (i : Word) (n : Nat) : outOfRange i n = false ↔ n = 0 ∨ i.toNat + n ≤ 4096 := by
  rw [← Bool.not_eq_true, outOfRange_iff]; omega

/-- Everything `accessing` can do: the `DataBounds` latch, or the effect. -/
theorem accessing_next {ins : Instr} {s t d : State} {n : Nat} (h : accessing ins s n d = .next t) :
    (outOfRange s.i n = true ∧ t = s.latch .dataBounds (encode ins) s.i) ∨ (outOfRange s.i n = false ∧ t = d) := by
  unfold accessing raiseFrom raise at h
  split at h
  · exact .inl ⟨by assumption, by injection h with h; exact h.symm⟩
  · rename_i hr
    exact .inr ⟨by simpa using hr, by injection h with h; exact h.symm⟩

theorem accessing_fits {ins : Instr} {s d : State} {n : Nat} (h : n = 0 ∨ s.i.toNat + n ≤ 4096) :
    accessing ins s n d = .next d := by
  unfold accessing; rw [(outOfRange_eq_false_iff _ _).mpr h]; simp

theorem accessing_faults {ins : Instr} {s d : State} {n : Nat} (h1 : 1 ≤ n) (h : 4096 < s.i.toNat + n) :
    accessing ins s n d = .next (s.latch .dataBounds (encode ins) s.i) := by
  unfold accessing raiseFrom raise; rw [(outOfRange_iff _ _).mpr ⟨h1, h⟩]; simp

/-- Everything `withKey` can do: the `KeyIndex` latch, or the effect. -/
theorem withKey_next {ins : Instr} {s t d : State} {a : Byte} (h : withKey ins s a d = .next t) :
    (15 < a.toNat ∧ t = s.latch .keyIndex (encode ins) (zextByte a)) ∨ (a.toNat ≤ 15 ∧ t = d) := by
  unfold withKey raiseFrom raise at h
  split at h
  · exact .inl ⟨by assumption, by injection h with h; exact h.symm⟩
  · exact .inr ⟨by omega, by injection h with h; exact h.symm⟩

@[simp] theorem reported_next (iw : Word) (s : State) : reported iw (.next s) = .next (s.report iw) := rfl

/-- Everything a step can do when it answers a next state (R90): the latched fault reported again, the fetch fault, the
decode fault, or the decoded instruction run on the advanced `pc`. -/
theorem step_next {s t : State} (h : step s = .next t) :
    (s.fault ≠ .success ∧ t = s.report s.faultIw) ∨
    (s.fault = .success ∧ s.canFetch = false ∧ t = (s.latch .fetchBounds 0 s.pc).report 0) ∨
    (s.fault = .success ∧ s.canFetch = true ∧ (∃ e, decode s.fetchWord = .error e) ∧
      t = (s.advance.latch .invalidOpcode s.fetchWord s.fetchWord).report s.fetchWord) ∨
    (s.fault = .success ∧ s.canFetch = true ∧
      ∃ ins u, decode s.fetchWord = .ok ins ∧ exec ins s.advance = .next u ∧ t = u.report s.fetchWord) := by
  unfold step cycle runWord raise at h
  split at h
  · rename_i hf
    exact .inl ⟨hf, by injection h with h; exact h.symm⟩
  · rename_i hf
    have hf : s.fault = .success := by simpa using hf
    split at h
    · rename_i hc
      split at h
      · rename_i ins hd
        cases he : exec ins s.advance with
        | next u =>
          rw [he] at h
          injection h with h
          exact .inr (.inr (.inr ⟨hf, hc, ins, u, hd, he, h.symm⟩))
        | fault r => rw [he] at h; cases h
        | refused r => rw [he] at h; cases h
      · rename_i e hd
        injection h with h
        exact .inr (.inr (.inl ⟨hf, hc, ⟨e, hd⟩, h.symm⟩))
    · rename_i hc
      injection h with h
      exact .inr (.inl ⟨hf, by simpa using hc, h.symm⟩)

end Sys2Proof.Machine
end

