-- ==== Sys2Proof/Laws/Display.lean ====
section
/-! SUPPORT. What drawing does, pixel by pixel (spec 44_display R151): the loops of the compositor, said once. -/

namespace Sys2Proof.Machine

/-- A pixel of a framebuffer; dark outside it. -/
def litAt (scr : Screen) (r c : Nat) : Bool := if h : r < 32 ∧ c < 64 then (scr[r]'h.1)[c]'h.2 else false

theorem State.pixel_eq_litAt (s : State) (r c : Nat) : s.pixel r c = litAt s.screen r c := rfl

theorem litAt_outside {scr : Screen} {r c : Nat} (h : ¬ (r < 32 ∧ c < 64)) : litAt scr r c = false := by
  unfold litAt; rw [dif_neg h]

@[simp] theorem litAt_blank (r c : Nat) : litAt blankScreen r c = false := by
  unfold litAt blankScreen; split <;> simp

/-- `plot` toggles its pixel and no other. -/
theorem litAt_plot (cv : Canvas) (r c r' c' : Nat) :
    litAt (plot cv r c).screen r' c' =
      (litAt cv.screen r' c' ^^ decide (r' = r ∧ c' = c ∧ r < 32 ∧ c < 64)) := by
  unfold plot
  by_cases h : r < 32 ∧ c < 64
  · rw [dif_pos h]
    by_cases h' : r' < 32 ∧ c' < 64
    · unfold litAt
      simp only [dif_pos h']
      by_cases hr : r' = r
      · subst hr
        by_cases hc : c' = c
        · subst hc; simp [h.1, h.2]
        · have : c ≠ c' := fun e => hc e.symm
          simp [hc, this]
      · have : r ≠ r' := fun e => hr e.symm
        simp [hr, this]
    · rw [litAt_outside h', litAt_outside h']
      have : ¬ (r' = r ∧ c' = c ∧ r < 32 ∧ c < 64) := by rintro ⟨rfl, rfl, h1, h2⟩; exact h' ⟨h1, h2⟩
      simp [this]
  · rw [dif_neg h]
    have : ¬ (r' = r ∧ c' = c ∧ r < 32 ∧ c < 64) := fun e => h e.2.2
    simp [this]

/-- `plot` records a collision exactly when its pixel was lit. -/
theorem coll_plot (cv : Canvas) (r c : Nat) : (plot cv r c).coll = (cv.coll || litAt cv.screen r c) := by
  unfold plot litAt
  split <;> simp

/-- The first `k` columns of a sprite row, as `drawRow` draws them. -/
def drawCols (b : Byte) (r ox k : Nat) (cv : Canvas) : Canvas :=
  (List.range k).foldl (fun cv c => if spriteBit b c then plot cv r (ox + c) else cv) cv

theorem drawRow_eq (b : Byte) (r ox : Nat) (cv : Canvas) : drawRow b r ox cv = drawCols b r ox 8 cv := rfl

theorem drawCols_succ (b : Byte) (r ox k : Nat) (cv : Canvas) :
    drawCols b r ox (k + 1) cv =
      if spriteBit b k then plot (drawCols b r ox k cv) r (ox + k) else drawCols b r ox k cv := by
  unfold drawCols; rw [List.range_succ, List.foldl_append]; rfl

/-- The bit that the first `k` columns of the sprite byte `b`, drawn at row `r` from column `ox`, lay over a pixel. -/
def colsOver (b : Byte) (r ox k r' c' : Nat) : Bool :=
  decide (r' = r ∧ r' < 32 ∧ ox ≤ c' ∧ c' < ox + k ∧ c' < 64) && spriteBit b (c' - ox)

theorem colsOver_succ (b : Byte) (r ox k r' c' : Nat) :
    colsOver b r ox (k + 1) r' c' =
      (colsOver b r ox k r' c' ^^ (decide (r' = r ∧ c' = ox + k ∧ r < 32 ∧ ox + k < 64) && spriteBit b k)) := by
  unfold colsOver
  by_cases h : c' = ox + k
  · subst h
    rw [decide_eq_false (p := r' = r ∧ r' < 32 ∧ ox ≤ ox + k ∧ ox + k < ox + k ∧ ox + k < 64) (by omega),
      Nat.add_sub_cancel_left, Bool.false_and, Bool.false_xor]
    congr 1; apply decide_eq_decide.mpr; omega
  · rw [decide_eq_false (p := r' = r ∧ c' = ox + k ∧ r < 32 ∧ ox + k < 64) (by omega), Bool.false_and, Bool.xor_false]
    congr 1; apply decide_eq_decide.mpr; omega

theorem litAt_drawCols (b : Byte) (r ox k : Nat) (cv : Canvas) (r' c' : Nat) :
    litAt (drawCols b r ox k cv).screen r' c' = (litAt cv.screen r' c' ^^ colsOver b r ox k r' c') := by
  induction k with
  | zero =>
    have : colsOver b r ox 0 r' c' = false := by
      unfold colsOver; rw [decide_eq_false (by omega), Bool.false_and]
    rw [this, Bool.xor_false]; rfl
  | succ k ih =>
    rw [drawCols_succ, colsOver_succ, ← Bool.xor_assoc, ← ih]
    cases hb : spriteBit b k
    · simp
    · rw [if_pos rfl, litAt_plot, Bool.and_true]

theorem coll_drawCols (b : Byte) (r ox k : Nat) (cv : Canvas) :
    (drawCols b r ox k cv).coll = true ↔
      cv.coll = true ∨ ∃ c', colsOver b r ox k r c' = true ∧ litAt cv.screen r c' = true := by
  induction k with
  | zero =>
    have : ∀ c', colsOver b r ox 0 r c' = false := fun c' => by
      unfold colsOver; rw [decide_eq_false (by omega), Bool.false_and]
    simp [this, drawCols]
  | succ k ih =>
    have hk : colsOver b r ox k r (ox + k) = false := by
      unfold colsOver; rw [decide_eq_false (by omega), Bool.false_and]
    have hlit : litAt (drawCols b r ox k cv).screen r (ox + k) = litAt cv.screen r (ox + k) := by
      rw [litAt_drawCols, hk, Bool.xor_false]
    rw [drawCols_succ]
    cases hb : spriteBit b k
    · rw [if_neg (by simp), ih]
      simp only [colsOver_succ, hb, Bool.and_false, Bool.xor_false]
    · rw [if_pos rfl, coll_plot, hlit, Bool.or_eq_true, ih, or_assoc]
      apply or_congr_right
      constructor
      · rintro (⟨c', h1, h2⟩ | h)
        · have : c' ≠ ox + k := by rintro rfl; rw [hk] at h1; cases h1
          exact ⟨c', by rw [colsOver_succ, h1, decide_eq_false (by omega)]; simp, h2⟩
        · have : r < 32 ∧ ox + k < 64 := by
            apply Classical.byContradiction; intro hn; rw [litAt_outside hn] at h; cases h
          exact ⟨ox + k, by rw [colsOver_succ, hk, hb, decide_eq_true (by omega)]; rfl, h⟩
      · rintro ⟨c', h1, h2⟩
        by_cases hc : c' = ox + k
        · subst hc; exact .inr h2
        · rw [colsOver_succ, decide_eq_false (by omega), Bool.false_and, Bool.xor_false] at h1
          exact .inl ⟨c', h1, h2⟩

/-- The bit that the sprite rows `bs`, drawn from row `r` and column `ox`, lay over a pixel. -/
def rowsOver (ox : Nat) (bs : List Byte) (r r' c' : Nat) : Bool :=
  decide (r ≤ r' ∧ r' < r + bs.length ∧ r' < 32 ∧ ox ≤ c' ∧ c' < ox + 8 ∧ c' < 64) &&
    spriteBit (bs.getD (r' - r) 0) (c' - ox)

theorem rowsOver_cons (ox : Nat) (b : Byte) (bs : List Byte) (r r' c' : Nat) :
    rowsOver ox (b :: bs) r r' c' = (colsOver b r ox 8 r' c' ^^ rowsOver ox bs (r + 1) r' c') := by
  unfold rowsOver colsOver
  rw [List.length_cons]
  by_cases h : r' = r
  · subst h
    have : ¬ r' + 1 ≤ r' := by omega
    simp only [this, false_and, decide_false, Bool.false_and, Bool.xor_false, Nat.sub_self]
    simp only [List.getD_cons_zero]
    congr 1; apply decide_eq_decide.mpr; rw [true_and]; omega
  · simp only [h, false_and, decide_false, Bool.false_and, Bool.false_xor]
    by_cases h2 : r < r'
    · obtain ⟨j, hj⟩ : ∃ j, r' - r = j + 1 := ⟨r' - r - 1, by omega⟩
      rw [hj, List.getD_cons_succ, show r' - (r + 1) = j by omega]
      congr 1; apply decide_eq_decide.mpr; omega
    · have h3 : ¬ r ≤ r' := by omega
      have h4 : ¬ r + 1 ≤ r' := by omega
      simp [h3, h4]

/-- Drawing XORs the sprite onto the framebuffer (R151). -/
theorem litAt_drawRows (ox : Nat) (bs : List Byte) (r : Nat) (cv : Canvas) (r' c' : Nat) :
    litAt (drawRows ox bs r cv).screen r' c' = (litAt cv.screen r' c' ^^ rowsOver ox bs r r' c') := by
  induction bs generalizing r cv with
  | nil =>
    have : rowsOver ox [] r r' c' = false := by
      unfold rowsOver; rw [decide_eq_false (by simp only [List.length_nil]; omega), Bool.false_and]
    rw [this, Bool.xor_false]; rfl
  | cons b bs ih => rw [drawRows, ih, drawRow_eq, litAt_drawCols, rowsOver_cons, Bool.xor_assoc]

/-- Drawing collides exactly when a set sprite bit lies over a lit pixel of the framebuffer (R151). -/
theorem coll_drawRows (ox : Nat) (bs : List Byte) (r : Nat) (cv : Canvas) :
    (drawRows ox bs r cv).coll = true ↔
      cv.coll = true ∨ ∃ r' c', rowsOver ox bs r r' c' = true ∧ litAt cv.screen r' c' = true := by
  induction bs generalizing r cv with
  | nil =>
    have : ∀ r' c', rowsOver ox [] r r' c' = false := fun r' c' => by
      unfold rowsOver; rw [decide_eq_false (by simp only [List.length_nil]; omega), Bool.false_and]
    simp [this, drawRows]
  | cons b bs ih =>
    have hcol : ∀ r' c', r' ≠ r → colsOver b r ox 8 r' c' = false := fun r' c' h => by
      unfold colsOver; rw [decide_eq_false (by omega), Bool.false_and]
    have hrow : ∀ c', rowsOver ox bs (r + 1) r c' = false := fun c' => by
      unfold rowsOver; rw [decide_eq_false (by omega), Bool.false_and]
    rw [drawRows, ih, drawRow_eq, coll_drawCols, or_assoc]
    apply or_congr_right
    constructor
    · rintro (⟨c', h1, h2⟩ | ⟨r', c', h1, h2⟩)
      · exact ⟨r, c', by rw [rowsOver_cons, h1, hrow]; rfl, h2⟩
      · have : r' ≠ r := by rintro rfl; rw [hrow] at h1; cases h1
        rw [litAt_drawCols, hcol _ _ this, Bool.xor_false] at h2
        exact ⟨r', c', by rw [rowsOver_cons, hcol _ _ this, h1]; rfl, h2⟩
    · rintro ⟨r', c', h1, h2⟩
      rw [rowsOver_cons] at h1
      by_cases h : r' = r
      · subst h; rw [hrow, Bool.xor_false] at h1; exact .inl ⟨c', h1, h2⟩
      · rw [hcol _ _ h, Bool.false_xor] at h1
        exact .inr ⟨r', c', h1, by rw [litAt_drawCols, hcol _ _ h, Bool.xor_false]; exact h2⟩

end Sys2Proof.Machine
end

