-- ==== Sys2Proof/Laws/Encoding.lean ====
section
/-! SUPPORT. Words as numbers: the fields of a word and the word of each format (spec 30_encoding R71, R72, R82). -/

namespace Sys2Proof

/-- Concatenation is place value: `{a, b}` with `a` the more significant part (R8). -/
theorem append_toNat {n m : Nat} (a : BitVec n) (b : BitVec m) : (a ++ b).toNat = a.toNat * 2 ^ m + b.toNat := by
  rw [BitVec.toNat_append, ← Nat.shiftLeft_add_eq_or_of_lt b.isLt, Nat.shiftLeft_eq]

theorem fieldOp_toNat (iw : Word) : (fieldOp iw).toNat = iw.toNat / 4096 := by
  have := iw.isLt
  simp [fieldOp, BitVec.extractLsb'_toNat, Nat.shiftRight_eq_div_pow]; omega
theorem fieldX_toNat (iw : Word) : (fieldX iw).toNat = iw.toNat / 256 % 16 := by
  simp [fieldX, BitVec.extractLsb'_toNat, Nat.shiftRight_eq_div_pow]
theorem fieldY_toNat (iw : Word) : (fieldY iw).toNat = iw.toNat / 16 % 16 := by
  simp [fieldY, BitVec.extractLsb'_toNat, Nat.shiftRight_eq_div_pow]
theorem fieldN_toNat (iw : Word) : (fieldN iw).toNat = iw.toNat % 16 := by
  simp [fieldN, BitVec.extractLsb'_toNat]
theorem fieldKK_toNat (iw : Word) : (fieldKK iw).toNat = iw.toNat % 256 := by
  simp [fieldKK, BitVec.extractLsb'_toNat]
theorem fieldAddr_toNat (iw : Word) : (fieldAddr iw).toNat = iw.toNat % 4096 := by
  simp [fieldAddr, BitVec.extractLsb'_toNat]
theorem highByte_toNat (iw : Word) : (highByte iw).toNat = iw.toNat / 256 := by
  have := iw.isLt
  simp [highByte, BitVec.extractLsb'_toNat, Nat.shiftRight_eq_div_pow]; omega
theorem lowByte_toNat (iw : Word) : (lowByte iw).toNat = iw.toNat % 256 := by
  simp [lowByte, BitVec.extractLsb'_toNat]

theorem wordOfBytes_toNat (hi lo : Byte) : (wordOfBytes hi lo).toNat = hi.toNat * 256 + lo.toNat := append_toNat hi lo
theorem formatAddr_toNat (op : Nibble) (a : Addr) : (formatAddr op a).toNat = op.toNat * 4096 + a.toNat :=
  append_toNat op a
theorem formatXKK_toNat (op x : Nibble) (kk : Byte) :
    (formatXKK op x kk).toNat = (op.toNat * 16 + x.toNat) * 256 + kk.toNat := by
  have h : (op ++ x : Byte).toNat = op.toNat * 16 + x.toNat := append_toNat op x
  rw [← h]; exact append_toNat (op ++ x : Byte) kk
theorem formatXYN_toNat (op x y n : Nibble) :
    (formatXYN op x y n).toNat = (op.toNat * 16 + x.toNat) * 256 + (y.toNat * 16 + n.toNat) := by
  have h : (y ++ n : Byte).toNat = y.toNat * 16 + n.toNat := append_toNat y n
  rw [← h]; exact formatXKK_toNat op x (y ++ n : Byte)

/-! ### The fields of a built word -/

@[simp] theorem fieldOp_formatAddr (op : Nibble) (a : Addr) : fieldOp (formatAddr op a) = op := by
  apply BitVec.eq_of_toNat_eq; have := a.isLt; rw [fieldOp_toNat, formatAddr_toNat]; omega
@[simp] theorem fieldAddr_formatAddr (op : Nibble) (a : Addr) : fieldAddr (formatAddr op a) = a := by
  apply BitVec.eq_of_toNat_eq; have := a.isLt; rw [fieldAddr_toNat, formatAddr_toNat]; omega

@[simp] theorem fieldOp_formatXKK (op x : Nibble) (kk : Byte) : fieldOp (formatXKK op x kk) = op := by
  apply BitVec.eq_of_toNat_eq; have := x.isLt; have := kk.isLt; rw [fieldOp_toNat, formatXKK_toNat]; omega
@[simp] theorem fieldX_formatXKK (op x : Nibble) (kk : Byte) : fieldX (formatXKK op x kk) = x := by
  apply BitVec.eq_of_toNat_eq; have := x.isLt; have := kk.isLt; rw [fieldX_toNat, formatXKK_toNat]; omega
@[simp] theorem fieldKK_formatXKK (op x : Nibble) (kk : Byte) : fieldKK (formatXKK op x kk) = kk := by
  apply BitVec.eq_of_toNat_eq; have := kk.isLt; rw [fieldKK_toNat, formatXKK_toNat]; omega

@[simp] theorem fieldOp_formatXYN (op x y n : Nibble) : fieldOp (formatXYN op x y n) = op :=
  fieldOp_formatXKK op x (y ++ n : Byte)
@[simp] theorem fieldX_formatXYN (op x y n : Nibble) : fieldX (formatXYN op x y n) = x :=
  fieldX_formatXKK op x (y ++ n : Byte)
@[simp] theorem fieldY_formatXYN (op x y n : Nibble) : fieldY (formatXYN op x y n) = y := by
  apply BitVec.eq_of_toNat_eq; have := n.isLt; have := y.isLt; rw [fieldY_toNat, formatXYN_toNat]; omega
@[simp] theorem fieldN_formatXYN (op x y n : Nibble) : fieldN (formatXYN op x y n) = n := by
  apply BitVec.eq_of_toNat_eq; have := n.isLt; rw [fieldN_toNat, formatXYN_toNat]; omega

/-! ### A word is made of its fields (R82) -/

theorem formatAddr_fields (iw : Word) : formatAddr (fieldOp iw) (fieldAddr iw) = iw := by
  apply BitVec.eq_of_toNat_eq; rw [formatAddr_toNat, fieldOp_toNat, fieldAddr_toNat]; omega
theorem formatXKK_fields (iw : Word) : formatXKK (fieldOp iw) (fieldX iw) (fieldKK iw) = iw := by
  apply BitVec.eq_of_toNat_eq; rw [formatXKK_toNat, fieldOp_toNat, fieldX_toNat, fieldKK_toNat]; omega
theorem formatXYN_fields (iw : Word) : formatXYN (fieldOp iw) (fieldX iw) (fieldY iw) (fieldN iw) = iw := by
  apply BitVec.eq_of_toNat_eq; rw [formatXYN_toNat, fieldOp_toNat, fieldX_toNat, fieldY_toNat, fieldN_toNat]; omega
theorem wordOfBytes_bytes (iw : Word) : wordOfBytes (highByte iw) (lowByte iw) = iw := by
  apply BitVec.eq_of_toNat_eq; rw [wordOfBytes_toNat, highByte_toNat, lowByte_toNat]; omega

/-! ### Masks of the opcode map (R75) -/

theorem append_and {n m : Nat} (a c : BitVec n) (b d : BitVec m) : (a ++ b) &&& (c ++ d) = (a &&& c) ++ (b &&& d) := by
  apply BitVec.eq_of_getLsbD_eq; intro i hi
  simp only [BitVec.getLsbD_and, BitVec.getLsbD_append]
  split <;> rfl

theorem nibble_and_ones (a : Nibble) : a &&& 0xF = a := by
  revert a; decide
theorem byte_and_ones (a : Byte) : a &&& 0xFF = a := by
  revert a; decide

theorem byte_maskHigh (op x : Nibble) : (op ++ x : Byte) &&& (0xF#4 ++ 0x0#4 : Byte) = (op ++ (0 : Nibble) : Byte) :=
  (append_and op 0xF x 0).trans (by rw [nibble_and_ones]; simp)
theorem byte_maskLow (y n : Nibble) : (y ++ n : Byte) &&& (0x0#4 ++ 0xF#4 : Byte) = ((0 : Nibble) ++ n : Byte) :=
  (append_and y 0 n 0xF).trans (by rw [nibble_and_ones]; simp)

theorem formatAddr_maskOp (op : Nibble) (a : Addr) : formatAddr op a &&& 0xF000 = formatAddr op 0 :=
  (append_and op 0xF a 0).trans (by rw [nibble_and_ones]; simp; rfl)
theorem formatXKK_maskOp (op x : Nibble) (kk : Byte) : formatXKK op x kk &&& 0xF000 = formatXKK op 0 0 :=
  (append_and (op ++ x : Byte) (0xF#4 ++ 0x0#4 : Byte) kk 0).trans (by rw [byte_maskHigh]; simp; rfl)
theorem formatXKK_maskKK (op x : Nibble) (kk : Byte) : formatXKK op x kk &&& 0xF0FF = formatXKK op 0 kk :=
  (append_and (op ++ x : Byte) (0xF#4 ++ 0x0#4 : Byte) kk 0xFF).trans (by rw [byte_maskHigh, byte_and_ones]; rfl)
theorem formatXYN_maskN (op x y n : Nibble) : formatXYN op x y n &&& 0xF00F = formatXYN op 0 0 n :=
  (append_and (op ++ x : Byte) (0xF#4 ++ 0x0#4 : Byte) (y ++ n : Byte) (0x0#4 ++ 0xF#4 : Byte)).trans
    (by rw [byte_maskHigh, byte_maskLow]; rfl)
theorem formatXYN_maskOp (op x y n : Nibble) : formatXYN op x y n &&& 0xF000 = formatXYN op 0 0 0 :=
  formatXKK_maskOp op x (y ++ n : Byte)

end Sys2Proof
end

