-- ==== Sys2Proof/Laws/Fetch.lean ====
section
/-! SUPPORT. The operand values as numbers, the fetched word, and a word placed where the next step fetches it. -/

namespace Sys2Proof.Machine

/-! ### Operands as numbers (R73) -/

theorem zextAddr_toNat (addr : Addr) : (zextAddr addr).toNat = addr.toNat := by
  have := addr.isLt
  simp [zextAddr]; omega

theorem zextByte_toNat (b : Byte) : (zextByte b).toNat = b.toNat := by
  have := b.isLt
  simp [zextByte]; omega

theorem glyphAddress_toNat (b : Byte) : (glyphAddress (b.toNat % 16)).toNat = 5 * (b.toNat % 16) := by
  simp [glyphAddress]; omega

theorem flagByte_toNat (f : Bool) : (flagByte f).toNat = if f then 1 else 0 := by cases f <;> rfl

/-! ### Fetch (R53, R91) -/

theorem State.canFetch_iff (s : State) : s.canFetch = true ↔ s.pc.toNat ≤ 0x0FFE := by
  simp [State.canFetch]

theorem State.fetchWord_toNat (s : State) :
    s.fetchWord.toNat = 256 * (s.byteAt s.pc.toNat).toNat + (s.byteAt (s.pc.toNat + 1)).toNat := by
  rw [State.fetchWord, wordOfBytes_toNat, Nat.mul_comm]

/-- The advance of R92 does not wrap for a `pc` that could be fetched from. -/
theorem State.advance_pc_toNat {s : State} (h : s.pc.toNat ≤ 0x1000) : s.advance.pc.toNat = s.pc.toNat + 2 := by
  simp; omega

/-- Two bytes written at `pc` are the fetched word. -/
theorem State.fetchWord_writeWord (s : State) (iw : Word) (h : s.pc.toNat ≤ 0x0FFE) : (s.writeWord iw).fetchWord = iw := by
  have rd := fun c => Memory.read_writeBytes s.mem s.pc.toNat c [highByte iw, lowByte iw] (by simp; omega)
  unfold State.fetchWord State.byteAt State.writeWord
  dsimp only
  rw [rd, rd, if_pos (by simp), if_pos (by simp)]
  simp [wordOfBytes_bytes]

theorem State.unlatched_fault (s : State) : s.unlatched.fault = .success := by
  unfold State.unlatched; split
  · assumption
  · rfl

theorem State.fetchable_fault (s : State) : s.fetchable.fault = s.fault := by
  unfold State.fetchable; split <;> rfl

theorem State.fetchable_pc (s : State) : s.fetchable.pc.toNat ≤ 0x0FFE := by
  unfold State.fetchable; split
  · rename_i h; exact (State.canFetch_iff s).mp h
  · show (BitVec.ofNat 16 Config.progBase).toNat ≤ 0x0FFE; decide

/-- Where the machine can fetch, placing a word is writing its two bytes. -/
theorem State.placeWord_running (s : State) (iw : Word) (hf : s.fault = .success) (hp : s.pc.toNat ≤ 0x0FFE) :
    s.placeWord iw = s.writeWord iw := by
  unfold State.placeWord State.unlatched State.fetchable
  rw [if_pos hf, if_pos ((State.canFetch_iff s).mpr hp)]

/-- After placing a word, wherever the machine stood, no fault is latched and the word is the one fetched. -/
theorem State.placeWord_fetched (s : State) (iw : Word) :
    (s.placeWord iw).fault = .success ∧ (s.placeWord iw).pc.toNat ≤ 0x0FFE ∧ (s.placeWord iw).fetchWord = iw :=
  ⟨(State.fetchable_fault _).trans (State.unlatched_fault s), State.fetchable_pc _,
    State.fetchWord_writeWord _ iw (State.fetchable_pc _)⟩

end Sys2Proof.Machine
end

