-- ==== Sys2Proof/Laws/Keypad.lean ====
section
/-! SUPPORT. What the scan of the key wait does (spec 45_keypad_and_timers R162): the highest key down, or the record as it
was. -/

namespace Sys2Proof.Machine

theorem keyDown_eq (keys : Vector Bool 16) (k : Fin 16) : keyDown keys k.val = keys[k] := by
  unfold keyDown; rw [dif_pos k.isLt]; rfl

/-- The scan of the first `n` keys. -/
def scanFirst (keys : Vector Bool 16) (n : Nat) (record : Nibble × Bool) : Nibble × Bool :=
  (List.range n).foldl (fun record k => if keyDown keys k then (BitVec.ofNat 4 k, true) else record) record

theorem scanKeys_eq (keys : Vector Bool 16) (record : Nibble × Bool) : scanKeys keys record = scanFirst keys 16 record := rfl

theorem scanFirst_succ (keys : Vector Bool 16) (n : Nat) (record : Nibble × Bool) :
    scanFirst keys (n + 1) record = if keyDown keys n then (BitVec.ofNat 4 n, true) else scanFirst keys n record := by
  unfold scanFirst; rw [List.range_succ, List.foldl_append]; rfl

theorem scanFirst_none {keys : Vector Bool 16} {n : Nat} (record : Nibble × Bool)
    (h : ∀ k, k < n → keyDown keys k = false) : scanFirst keys n record = record := by
  induction n with
  | zero => rfl
  | succ n ih =>
    rw [scanFirst_succ, h n (by omega), if_neg (by simp)]
    exact ih fun k hk => h k (by omega)

theorem scanFirst_highest {keys : Vector Bool 16} {n k : Nat} (record : Nibble × Bool) (hk : k < n)
    (hd : keyDown keys k = true) (h : ∀ j, k < j → j < n → keyDown keys j = false) :
    scanFirst keys n record = (BitVec.ofNat 4 k, true) := by
  induction n with
  | zero => omega
  | succ n ih =>
    rw [scanFirst_succ]
    by_cases e : k = n
    · subst e; rw [if_pos hd]
    · rw [h n (by omega) (by omega), if_neg (by simp)]
      exact ih (by omega) fun j h1 h2 => h j h1 (by omega)

/-- With no key down the scan leaves the record alone. -/
theorem scanKeys_none {keys : Vector Bool 16} (record : Nibble × Bool) (h : ∀ k : Fin 16, keys[k] = false) :
    scanKeys keys record = record :=
  scanFirst_none record fun k hk => (keyDown_eq keys ⟨k, hk⟩).trans (h ⟨k, hk⟩)

/-- With keys down the scan records the highest of them. -/
theorem scanKeys_highest {keys : Vector Bool 16} (record : Nibble × Bool) (k : Fin 16) (hd : keys[k] = true)
    (h : ∀ j : Fin 16, k < j → keys[j] = false) : scanKeys keys record = (BitVec.ofNat 4 k.val, true) :=
  scanFirst_highest record k.isLt ((keyDown_eq keys k).trans hd) fun j h1 h2 =>
    (keyDown_eq keys ⟨j, h2⟩).trans (h ⟨j, h2⟩ h1)

/-- The recorded key counts as released exactly when the record is live and that key is up. -/
theorem released_iff (keys : Vector Bool 16) (record : Nibble × Bool) :
    released keys record = true ↔ record.2 = true ∧ keyDown keys record.1.toNat = false := by
  unfold released; simp

end Sys2Proof.Machine
end

