-- ==== Sys2Proof/Laws/PerInstr.lean ====
section
/-! SUPPORT. A statement per instruction: its word is covered by its own row of the opcode map (spec 30_encoding R75). -/

namespace Sys2Proof.Laws

/-- The row of `opcodeRows` that an instruction stands in: the table's order is the constructors' order. -/
def rowIndex : Instr → Nat
  | .cls => 0
  | .ret => 1
  | .jp _ => 2
  | .call _ => 3
  | .seImm _ _ => 4
  | .sneImm _ _ => 5
  | .seReg _ _ => 6
  | .sneReg _ _ => 7
  | .ldImm _ _ => 8
  | .addImm _ _ => 9
  | .ldReg _ _ => 10
  | .orReg _ _ => 11
  | .andReg _ _ => 12
  | .xorReg _ _ => 13
  | .addReg _ _ => 14
  | .sub _ _ => 15
  | .shr _ _ => 16
  | .subn _ _ => 17
  | .shl _ _ => 18
  | .ldI _ => 19
  | .jpV0 _ => 20
  | .rnd _ _ => 21
  | .drw _ _ _ => 22
  | .skp _ => 23
  | .sknp _ => 24
  | .ldVxDt _ => 25
  | .ldDtVx _ => 26
  | .ldStVx _ => 27
  | .ldVxK _ => 28
  | .addI _ => 29
  | .ldF _ => 30
  | .ldB _ => 31
  | .stRegs _ => 32
  | .ldRegs _ => 33

/-- `(encode i & mask) = match` for the instruction's own row (R74, R75). -/
def EncodesItsRow.Statement (i : Instr) : Prop :=
  ∃ r, opcodeRows[rowIndex i]? = some r ∧ r.covers (encode i) = true

theorem covers_of_eq {w v m : Word} (h : w &&& m = v) : OpcodeRow.covers ⟨v, m⟩ w = true := by
  simp [OpcodeRow.covers, h]

theorem EncodesItsRow.cls : EncodesItsRow.Statement .cls :=
  ⟨_, rfl, by decide⟩
theorem EncodesItsRow.ret : EncodesItsRow.Statement .ret :=
  ⟨_, rfl, by decide⟩
theorem EncodesItsRow.jp (addr : Addr) : EncodesItsRow.Statement (.jp addr) :=
  ⟨_, rfl, covers_of_eq (formatAddr_maskOp 0x1 addr)⟩
theorem EncodesItsRow.call (addr : Addr) : EncodesItsRow.Statement (.call addr) :=
  ⟨_, rfl, covers_of_eq (formatAddr_maskOp 0x2 addr)⟩
theorem EncodesItsRow.seImm (x : Nibble) (kk : Byte) : EncodesItsRow.Statement (.seImm x kk) :=
  ⟨_, rfl, covers_of_eq (formatXKK_maskOp 0x3 x kk)⟩
theorem EncodesItsRow.sneImm (x : Nibble) (kk : Byte) : EncodesItsRow.Statement (.sneImm x kk) :=
  ⟨_, rfl, covers_of_eq (formatXKK_maskOp 0x4 x kk)⟩
theorem EncodesItsRow.seReg (x : Nibble) (y : Nibble) : EncodesItsRow.Statement (.seReg x y) :=
  ⟨_, rfl, covers_of_eq (formatXYN_maskN 0x5 x y 0x0)⟩
theorem EncodesItsRow.sneReg (x : Nibble) (y : Nibble) : EncodesItsRow.Statement (.sneReg x y) :=
  ⟨_, rfl, covers_of_eq (formatXYN_maskN 0x9 x y 0x0)⟩
theorem EncodesItsRow.ldImm (x : Nibble) (kk : Byte) : EncodesItsRow.Statement (.ldImm x kk) :=
  ⟨_, rfl, covers_of_eq (formatXKK_maskOp 0x6 x kk)⟩
theorem EncodesItsRow.addImm (x : Nibble) (kk : Byte) : EncodesItsRow.Statement (.addImm x kk) :=
  ⟨_, rfl, covers_of_eq (formatXKK_maskOp 0x7 x kk)⟩
theorem EncodesItsRow.ldReg (x : Nibble) (y : Nibble) : EncodesItsRow.Statement (.ldReg x y) :=
  ⟨_, rfl, covers_of_eq (formatXYN_maskN 0x8 x y 0x0)⟩
theorem EncodesItsRow.orReg (x : Nibble) (y : Nibble) : EncodesItsRow.Statement (.orReg x y) :=
  ⟨_, rfl, covers_of_eq (formatXYN_maskN 0x8 x y 0x1)⟩
theorem EncodesItsRow.andReg (x : Nibble) (y : Nibble) : EncodesItsRow.Statement (.andReg x y) :=
  ⟨_, rfl, covers_of_eq (formatXYN_maskN 0x8 x y 0x2)⟩
theorem EncodesItsRow.xorReg (x : Nibble) (y : Nibble) : EncodesItsRow.Statement (.xorReg x y) :=
  ⟨_, rfl, covers_of_eq (formatXYN_maskN 0x8 x y 0x3)⟩
theorem EncodesItsRow.addReg (x : Nibble) (y : Nibble) : EncodesItsRow.Statement (.addReg x y) :=
  ⟨_, rfl, covers_of_eq (formatXYN_maskN 0x8 x y 0x4)⟩
theorem EncodesItsRow.sub (x : Nibble) (y : Nibble) : EncodesItsRow.Statement (.sub x y) :=
  ⟨_, rfl, covers_of_eq (formatXYN_maskN 0x8 x y 0x5)⟩
theorem EncodesItsRow.shr (x : Nibble) (y : Nibble) : EncodesItsRow.Statement (.shr x y) :=
  ⟨_, rfl, covers_of_eq (formatXYN_maskN 0x8 x y 0x6)⟩
theorem EncodesItsRow.subn (x : Nibble) (y : Nibble) : EncodesItsRow.Statement (.subn x y) :=
  ⟨_, rfl, covers_of_eq (formatXYN_maskN 0x8 x y 0x7)⟩
theorem EncodesItsRow.shl (x : Nibble) (y : Nibble) : EncodesItsRow.Statement (.shl x y) :=
  ⟨_, rfl, covers_of_eq (formatXYN_maskN 0x8 x y 0xE)⟩
theorem EncodesItsRow.ldI (addr : Addr) : EncodesItsRow.Statement (.ldI addr) :=
  ⟨_, rfl, covers_of_eq (formatAddr_maskOp 0xA addr)⟩
theorem EncodesItsRow.jpV0 (addr : Addr) : EncodesItsRow.Statement (.jpV0 addr) :=
  ⟨_, rfl, covers_of_eq (formatAddr_maskOp 0xB addr)⟩
theorem EncodesItsRow.rnd (x : Nibble) (kk : Byte) : EncodesItsRow.Statement (.rnd x kk) :=
  ⟨_, rfl, covers_of_eq (formatXKK_maskOp 0xC x kk)⟩
theorem EncodesItsRow.drw (x : Nibble) (y : Nibble) (n : Nibble) : EncodesItsRow.Statement (.drw x y n) :=
  ⟨_, rfl, covers_of_eq (formatXYN_maskOp 0xD x y n)⟩
theorem EncodesItsRow.skp (x : Nibble) : EncodesItsRow.Statement (.skp x) :=
  ⟨_, rfl, covers_of_eq (formatXKK_maskKK 0xE x 0x9E)⟩
theorem EncodesItsRow.sknp (x : Nibble) : EncodesItsRow.Statement (.sknp x) :=
  ⟨_, rfl, covers_of_eq (formatXKK_maskKK 0xE x 0xA1)⟩
theorem EncodesItsRow.ldVxDt (x : Nibble) : EncodesItsRow.Statement (.ldVxDt x) :=
  ⟨_, rfl, covers_of_eq (formatXKK_maskKK 0xF x 0x07)⟩
theorem EncodesItsRow.ldDtVx (x : Nibble) : EncodesItsRow.Statement (.ldDtVx x) :=
  ⟨_, rfl, covers_of_eq (formatXKK_maskKK 0xF x 0x15)⟩
theorem EncodesItsRow.ldStVx (x : Nibble) : EncodesItsRow.Statement (.ldStVx x) :=
  ⟨_, rfl, covers_of_eq (formatXKK_maskKK 0xF x 0x18)⟩
theorem EncodesItsRow.ldVxK (x : Nibble) : EncodesItsRow.Statement (.ldVxK x) :=
  ⟨_, rfl, covers_of_eq (formatXKK_maskKK 0xF x 0x0A)⟩
theorem EncodesItsRow.addI (x : Nibble) : EncodesItsRow.Statement (.addI x) :=
  ⟨_, rfl, covers_of_eq (formatXKK_maskKK 0xF x 0x1E)⟩
theorem EncodesItsRow.ldF (x : Nibble) : EncodesItsRow.Statement (.ldF x) :=
  ⟨_, rfl, covers_of_eq (formatXKK_maskKK 0xF x 0x29)⟩
theorem EncodesItsRow.ldB (x : Nibble) : EncodesItsRow.Statement (.ldB x) :=
  ⟨_, rfl, covers_of_eq (formatXKK_maskKK 0xF x 0x33)⟩
theorem EncodesItsRow.stRegs (x : Nibble) : EncodesItsRow.Statement (.stRegs x) :=
  ⟨_, rfl, covers_of_eq (formatXKK_maskKK 0xF x 0x55)⟩
theorem EncodesItsRow.ldRegs (x : Nibble) : EncodesItsRow.Statement (.ldRegs x) :=
  ⟨_, rfl, covers_of_eq (formatXKK_maskKK 0xF x 0x65)⟩

end Sys2Proof.Laws
end

