-- ==== Sys2Proof/Tests/Slice0.lean ====
section
/-! SUPPORT. The model's own tests: words written out from the encodings of the spec, single steps with the results of the
spec's vectors, and for each statement with hypotheses a state that meets them. -/

namespace Sys2Proof.Tests

open Sys2Proof Sys2Proof.Machine

/-- What `f` sees in the next state; none where there is no next state. -/
def after {α : Type} (f : State → α) : Result → Option α
  | .next t => some (f t)
  | .fault _ => none
  | .refused _ => none

theorem next_of_after {α : Type} {f : State → α} {r : Result} {a : α} (h : after f r = some a) :
    ∃ t, r = .next t ∧ f t = a := by
  cases r with
  | next t => exact ⟨t, rfl, Option.some.inj h⟩
  | fault r => cases h
  | refused r => cases h

/-- The reset state with the listed changes and the word at 0x0200. -/
def start (w : Word) (setup : State → State) : State := (setup State.reset).placeWord w

/-- One step from `start`, seen through `f`. -/
def oneStep {α : Type} (w : Word) (setup : State → State) (f : State → α) : Option α := after f (step (start w setup))

/-- A byte of memory set directly. -/
def poke (a : Nat) (b : Byte) (s : State) : State := { s with mem := s.mem.write a b }

/-- One key held down. -/
def press (k : Fin 16) (s : State) : State := { s with keys := s.keys.set k.val true }

/-- One pixel lit. -/
def light (r : Fin 32) (c : Fin 64) (s : State) : State :=
  { s with screen := s.screen.set r.val ((s.screen[r]).set c.val true) }

/-! ## Well-formedness refuses -/

theorem test_legalWord_refuses_family0 : legalWord 0x01E0 = false := by decide
theorem test_legalWord_refuses_family5 : legalWord 0x5121 = false := by decide
theorem test_legalWord_refuses_family8 : legalWord 0x8128 = false := by decide
theorem test_legalWord_refuses_family9 : legalWord 0x912F = false := by decide
theorem test_legalWord_refuses_familyE : legalWord 0xE19F = false := by decide
theorem test_legalWord_refuses_familyF : legalWord 0xF066 = false := by decide
theorem test_decode_refuses_zero : decode 0x0000 = .error (.invalidOpcode 0x0000) := by decide
theorem test_decode_refuses_00FF : decode 0x00FF = .error (.invalidOpcode 0x00FF) := by decide
theorem test_decode_refuses_5121 : decode 0x5121 = .error (.invalidOpcode 0x5121) := by decide
theorem test_decode_refuses_812F : decode 0x812F = .error (.invalidOpcode 0x812F) := by decide
theorem test_decode_refuses_9121 : decode 0x9121 = .error (.invalidOpcode 0x9121) := by decide
theorem test_decode_refuses_E1A0 : decode 0xE1A0 = .error (.invalidOpcode 0xE1A0) := by decide
theorem test_decode_refuses_FFFF : decode 0xFFFF = .error (.invalidOpcode 0xFFFF) := by decide
theorem test_imageFits_refuses_3585 : imageFits (List.replicate 3585 0) = false := by
  simp only [imageFits, List.length_replicate]; decide
theorem test_imageFits_takes_3584 : imageFits (List.replicate 3584 0) = true := by
  simp only [imageFits, List.length_replicate]; decide
theorem test_memory_wf_refuses_unsorted : Memory.wf [(0x301, 1), (0x300, 1)] = false := by decide
theorem test_memory_wf_refuses_reset_value : Memory.wf [(0, 0xF0)] = false := by decide
theorem test_memory_wf_refuses_4096 : Memory.wf [(4096, 1)] = false := by decide

/-! ## A word of every constructor, from the patterns of R75 -/

theorem test_decode_00E0 : decode 0x00E0 = .ok (.cls) := by decide
theorem test_encode_00E0 : encode (.cls) = 0x00E0 := by decide
theorem test_decode_00EE : decode 0x00EE = .ok (.ret) := by decide
theorem test_decode_1234 : decode 0x1234 = .ok (.jp 0x234) := by decide
theorem test_decode_2300 : decode 0x2300 = .ok (.call 0x300) := by decide
theorem test_decode_332A : decode 0x332A = .ok (.seImm 0x3 0x2A) := by decide
theorem test_decode_432A : decode 0x432A = .ok (.sneImm 0x3 0x2A) := by decide
theorem test_decode_5120 : decode 0x5120 = .ok (.seReg 0x1 0x2) := by decide
theorem test_decode_9120 : decode 0x9120 = .ok (.sneReg 0x1 0x2) := by decide
theorem test_decode_6A2B : decode 0x6A2B = .ok (.ldImm 0xA 0x2B) := by decide
theorem test_decode_7220 : decode 0x7220 = .ok (.addImm 0x2 0x20) := by decide
theorem test_decode_8340 : decode 0x8340 = .ok (.ldReg 0x3 0x4) := by decide
theorem test_decode_8121 : decode 0x8121 = .ok (.orReg 0x1 0x2) := by decide
theorem test_decode_8122 : decode 0x8122 = .ok (.andReg 0x1 0x2) := by decide
theorem test_decode_8123 : decode 0x8123 = .ok (.xorReg 0x1 0x2) := by decide
theorem test_decode_8124 : decode 0x8124 = .ok (.addReg 0x1 0x2) := by decide
theorem test_decode_8125 : decode 0x8125 = .ok (.sub 0x1 0x2) := by decide
theorem test_decode_8126 : decode 0x8126 = .ok (.shr 0x1 0x2) := by decide
theorem test_decode_8127 : decode 0x8127 = .ok (.subn 0x1 0x2) := by decide
theorem test_decode_812E : decode 0x812E = .ok (.shl 0x1 0x2) := by decide
theorem test_encode_812E : encode (.shl 0x1 0x2) = 0x812E := by decide
theorem test_decode_A2F0 : decode 0xA2F0 = .ok (.ldI 0x2F0) := by decide
theorem test_encode_A2F0 : encode (.ldI 0x2F0) = 0xA2F0 := by decide
theorem test_decode_B300 : decode 0xB300 = .ok (.jpV0 0x300) := by decide
theorem test_decode_C30F : decode 0xC30F = .ok (.rnd 0x3 0x0F) := by decide
theorem test_encode_C30F : encode (.rnd 0x3 0x0F) = 0xC30F := by decide
theorem test_decode_D12A : decode 0xD12A = .ok (.drw 0x1 0x2 0xA) := by decide
theorem test_encode_D12A : encode (.drw 0x1 0x2 0xA) = 0xD12A := by decide
theorem test_decode_E19E : decode 0xE19E = .ok (.skp 0x1) := by decide
theorem test_decode_E1A1 : decode 0xE1A1 = .ok (.sknp 0x1) := by decide
theorem test_decode_F407 : decode 0xF407 = .ok (.ldVxDt 0x4) := by decide
theorem test_decode_F415 : decode 0xF415 = .ok (.ldDtVx 0x4) := by decide
theorem test_decode_F518 : decode 0xF518 = .ok (.ldStVx 0x5) := by decide
theorem test_decode_F30A : decode 0xF30A = .ok (.ldVxK 0x3) := by decide
theorem test_decode_F11E : decode 0xF11E = .ok (.addI 0x1) := by decide
theorem test_decode_F229 : decode 0xF229 = .ok (.ldF 0x2) := by decide
theorem test_decode_F433 : decode 0xF433 = .ok (.ldB 0x4) := by decide
theorem test_decode_F155 : decode 0xF155 = .ok (.stRegs 0x1) := by decide
theorem test_decode_F165 : decode 0xF165 = .ok (.ldRegs 0x1) := by decide
theorem test_encode_F165 : encode (.ldRegs 0x1) = 0xF165 := by decide
theorem test_tableWord_first_byte_is_high : decodeTableWord 16 0xD12A = some (.drw 0x1 0x2 0xA) := by decide
theorem test_tableWord_refuses_illegal : decodeTableWord 16 0x5121 = none := by decide

/-! ## Single steps; the expected results are those of spec/96_test_vectors_families.md, by vector -/

/-- Vector DR1. -/
theorem test_cls_darkens_keeps_VF : oneStep 0x00E0 (fun s => (light 10 20 (light 31 63 s)).setReg 0xF 1) (fun t => (t.pixel 10 20, t.pixel 31 63, t.reg 0xF)) = some (false, false, 1) := by decide
/-- Vector CF2. -/
theorem test_ret_from_full_stack : oneStep 0x00EE (fun s => { s with sp := 16, stack := s.stack.set 15 0x0ABC }) (fun t => (t.sp.val, t.pc)) = some (15, 0x0ABC) := by decide
/-- Vector CF4. -/
theorem test_ret_underflow : oneStep 0x00EE (fun s => s) (fun t => (t.out, t.pc, t.sp.val)) = some (⟨.stackUnderflow, 0x00EE, 0⟩, 0x0202, 0) := by decide
/-- Vector CF5. -/
theorem test_jp : oneStep 0x1234 (fun s => s) (fun t => t.pc) = some 0x0234 := by decide
/-- Vector CF7. -/
theorem test_jp_0FFF : oneStep 0x1FFF (fun s => s) (fun t => (t.pc, t.fault)) = some (0x0FFF, .success) := by decide
/-- Vector CF10. -/
theorem test_call_fills_stack : oneStep 0x2300 (fun s => { s with sp := 15 }) (fun t => (t.sp.val, t.stack[15], t.pc)) = some (16, 0x0202, 0x0300) := by decide
/-- Vector CF11. -/
theorem test_call_overflow : oneStep 0x2300 (fun s => { s with sp := 16 }) (fun t => (t.out, t.pc)) = some (⟨.stackOverflow, 0x2300, 0x0010⟩, 0x0202) := by decide
/-- Vector CF12. -/
theorem test_seImm_equal : oneStep 0x332A (fun s => s.setReg 3 0x2A) (fun t => t.pc) = some 0x0204 := by decide
/-- Vector CF13. -/
theorem test_seImm_differ : oneStep 0x332A (fun s => s.setReg 3 0x2B) (fun t => t.pc) = some 0x0202 := by decide
/-- Vector CF15. -/
theorem test_sneImm_equal : oneStep 0x432A (fun s => s.setReg 3 0x2A) (fun t => t.pc) = some 0x0202 := by decide
/-- Vector CF16. -/
theorem test_sneImm_differ : oneStep 0x432A (fun s => s.setReg 3 0x2B) (fun t => t.pc) = some 0x0204 := by decide
/-- Vector CF18. -/
theorem test_seReg_equal : oneStep 0x5120 (fun s => (s.setReg 1 7).setReg 2 7) (fun t => t.pc) = some 0x0204 := by decide
/-- Vector CF19. -/
theorem test_seReg_differ : oneStep 0x5120 (fun s => (s.setReg 1 7).setReg 2 8) (fun t => t.pc) = some 0x0202 := by decide
/-- Vector CF22. -/
theorem test_sneReg_differ : oneStep 0x9120 (fun s => (s.setReg 1 7).setReg 2 8) (fun t => t.pc) = some 0x0204 := by decide
/-- Vector CF24. -/
theorem test_sneReg_itself : oneStep 0x9330 (fun s => s.setReg 3 0x99) (fun t => t.pc) = some 0x0202 := by decide
/-- Vector AL1. -/
theorem test_ldImm : oneStep 0x6A2B (fun s => s) (fun t => (t.reg 0xA, t.pc)) = some (0x2B, 0x0202) := by decide
/-- Vector AL4. -/
theorem test_addImm_keeps_VF : oneStep 0x72FF (fun s => s.setReg 0xF 1) (fun t => (t.reg 2, t.reg 0xF)) = some (0xFF, 1) := by decide
/-- Vector AL7. -/
theorem test_addImm_VF_wraps : oneStep 0x7F01 (fun s => s.setReg 0xF 0xFF) (fun t => t.reg 0xF) = some 0 := by decide
/-- Vector AL8. -/
theorem test_ldReg_no_flag : oneStep 0x8340 (fun s => (s.setReg 4 0x99).setReg 0xF 1) (fun t => (t.reg 3, t.reg 0xF)) = some (0x99, 1) := by decide
/-- Vector AL13. -/
theorem test_or_into_VF : oneStep 0x8F21 (fun s => (s.setReg 2 0xF0).setReg 0xF 1) (fun t => t.reg 0xF) = some 0 := by decide
/-- Vector AL14. -/
theorem test_or_from_VF : oneStep 0x81F1 (fun s => (s.setReg 1 0x10).setReg 0xF 3) (fun t => (t.reg 1, t.reg 0xF)) = some (0x13, 0) := by decide
/-- Vector AL15. -/
theorem test_and : oneStep 0x8122 (fun s => ((s.setReg 1 0x3C).setReg 2 0x0F).setReg 0xF 1) (fun t => (t.reg 1, t.reg 0xF)) = some (0x0C, 0) := by decide
/-- Vector AL17. -/
theorem test_xor : oneStep 0x8123 (fun s => ((s.setReg 1 0xFF).setReg 2 0x0F).setReg 0xF 1) (fun t => (t.reg 1, t.reg 0xF)) = some (0xF0, 0) := by decide
/-- Vector AL23. -/
theorem test_add_carry : oneStep 0x8124 (fun s => (s.setReg 1 0xC8).setReg 2 0x64) (fun t => (t.reg 1, t.reg 0xF)) = some (0x2C, 1) := by decide
/-- Vector AL22. -/
theorem test_add_sum_255 : oneStep 0x8124 (fun s => ((s.setReg 1 0xFE).setReg 2 1)) (fun t => (t.reg 1, t.reg 0xF)) = some (0xFF, 0) := by decide
/-- Vector AL30. -/
theorem test_sub_borrow : oneStep 0x8125 (fun s => ((s.setReg 1 3).setReg 2 5).setReg 0xF 1) (fun t => (t.reg 1, t.reg 0xF)) = some (0xFE, 0) := by decide
/-- Vector AL31. -/
theorem test_sub_equal : oneStep 0x8125 (fun s => (s.setReg 1 0x42).setReg 2 0x42) (fun t => (t.reg 1, t.reg 0xF)) = some (0, 1) := by decide
/-- Vector AL40. -/
theorem test_shr_takes_Vy : oneStep 0x8126 (fun s => (s.setReg 1 0xEE).setReg 2 5) (fun t => (t.reg 1, t.reg 2, t.reg 0xF)) = some (2, 5, 1) := by decide
/-- Vector AL41. -/
theorem test_shr_logical : oneStep 0x8126 (fun s => (s.setReg 2 0x80).setReg 0xF 1) (fun t => (t.reg 1, t.reg 0xF)) = some (0x40, 0) := by decide
/-- Vector AL36. -/
theorem test_subn : oneStep 0x8127 (fun s => (s.setReg 1 3).setReg 2 5) (fun t => (t.reg 1, t.reg 0xF)) = some (2, 1) := by decide
/-- Vector AL37. -/
theorem test_subn_borrow : oneStep 0x8127 (fun s => ((s.setReg 1 5).setReg 2 3).setReg 0xF 1) (fun t => (t.reg 1, t.reg 0xF)) = some (0xFE, 0) := by decide
/-- Vector AL46. -/
theorem test_shl_takes_Vy : oneStep 0x812E (fun s => (s.setReg 1 0xEE).setReg 2 0x81) (fun t => (t.reg 1, t.reg 2, t.reg 0xF)) = some (2, 0x81, 1) := by decide
/-- Vector AL51. -/
theorem test_shl_VF : oneStep 0x8FFE (fun s => s.setReg 0xF 0x80) (fun t => t.reg 0xF) = some 1 := by decide
/-- Vector IM1. -/
theorem test_ldI : oneStep 0xA2F0 (fun s => s.setI 0xFFFF) (fun t => t.i) = some 0x02F0 := by decide
/-- Vector CF27. -/
theorem test_jpV0_offset_is_V0 : oneStep 0xB300 (fun s => (s.setReg 0 4).setReg 3 0x80) (fun t => t.pc) = some 0x0304 := by decide
/-- Vector CF28. -/
theorem test_jpV0_not_reduced : oneStep 0xBFFF (fun s => s.setReg 0 0xFF) (fun t => t.pc) = some 0x10FE := by decide
/-- Vector AL55, whatever the sample. -/
theorem test_rnd_mask_zero : oneStep 0xC300 (fun s => s.setReg 3 0x55) (fun t => (t.reg 3, t.rndDraws)) = some (0, 1) := by
  have h : oneStep 0xC300 (fun s => s.setReg 3 0x55) (fun t => (t.reg 3, t.rndDraws)) = some (Config.rnd 0 &&& 0x00, 1) := rfl
  rw [h]; simp
/-- Vector AL53, with the free byte for the sample. -/
theorem test_rnd_masks_sample : oneStep 0xC30F (fun s => s) (fun t => t.reg 3) = some (Config.rnd 0 &&& 0x0F) := rfl
/-- Vector DR16. -/
theorem test_drw_partial_overlap : oneStep 0xD011 (fun s => light 0 3 (light 0 4 (poke 0x300 0xF0 (s.setI 0x300)))) (fun t => (t.reg 0xF, t.pixel 0 0, t.pixel 0 2, t.pixel 0 3, t.pixel 0 4, t.pixel 0 5)) = some (1, true, true, false, true, false) := by decide
/-- Vector DR7. -/
theorem test_drw_corner_leftmost_bit : oneStep 0xD011 (fun s => poke 0x300 0xC0 (((s.setI 0x300).setReg 0 0x3E).setReg 1 0x1F)) (fun t => (t.pixel 31 61, t.pixel 31 62, t.pixel 31 63, t.pixel 31 0, t.pixel 0 62)) = some (false, true, true, false, false) := by decide
/-- Vector KT1. -/
theorem test_skp_down : oneStep 0xE19E (fun s => press 5 (s.setReg 1 5)) (fun t => t.pc) = some 0x0204 := by decide
/-- Vector KT4. -/
theorem test_skp_keyIndex : oneStep 0xE19E (fun s => press 0 (s.setReg 1 0x10)) (fun t => (t.out, t.pc)) = some (⟨.keyIndex, 0xE19E, 0x0010⟩, 0x0202) := by decide
/-- Vector KT5. -/
theorem test_sknp_up : oneStep 0xE1A1 (fun s => s.setReg 1 5) (fun t => t.pc) = some 0x0204 := by decide
/-- Vector KT6. -/
theorem test_sknp_down : oneStep 0xE1A1 (fun s => press 5 (s.setReg 1 5)) (fun t => t.pc) = some 0x0202 := by decide
/-- Vector KT19. -/
theorem test_ldVxDt_not_ST : oneStep 0xF407 (fun s => { s.setReg 4 9 with st := 0x3C }) (fun t => t.reg 4) = some 0 := by decide
/-- Vector KT20. -/
theorem test_ldDtVx : oneStep 0xF415 (fun s => s.setReg 4 0x3C) (fun t => (t.dt, t.st)) = some (0x3C, 0) := by decide
/-- Vector KT22. -/
theorem test_ldStVx : oneStep 0xF518 (fun s => s.setReg 5 2) (fun t => (t.st, t.dt, t.tone)) = some (2, 0, true) := by decide
/-- Vector KT13. -/
theorem test_ldVxK_rerecords : oneStep 0xF30A (fun s => press 2 { s with lkKey := 9, lkPressed := true }) (fun t => (t.lkKey, t.lkPressed, t.pc)) = some (2, true, 0x0200) := by decide
/-- Vector KT15. -/
theorem test_ldVxK_completes : oneStep 0xF30A (fun s => { s.setReg 3 0x55 with lkKey := 0, lkPressed := true }) (fun t => (t.reg 3, t.lkPressed, t.pc)) = some (0, false, 0x0202) := by decide
/-- Vector IM3. -/
theorem test_addI_past_memory : oneStep 0xF11E (fun s => (s.setI 0x0FFE).setReg 1 5) (fun t => (t.i, t.reg 0xF, t.fault)) = some (0x1003, 0, .success) := by decide
/-- Vector IM4. -/
theorem test_addI_wraps : oneStep 0xF11E (fun s => (s.setI 0xFFFF).setReg 1 1) (fun t => t.i) = some 0 := by decide
/-- Vector IM8. -/
theorem test_ldF_low_nibble : oneStep 0xF229 (fun s => s.setReg 2 0x1A) (fun t => t.i) = some 0x0032 := by decide
/-- Vector IM16. -/
theorem test_ldB_top_of_memory : oneStep 0xF033 (fun s => (s.setI 0x0FFD).setReg 0 0xC7) (fun t => (t.byteAt 0xFFD, t.byteAt 0xFFE, t.byteAt 0xFFF)) = some (1, 9, 9) := by decide
/-- Vector IM17. -/
theorem test_ldB_dataBounds : oneStep 0xF033 (fun s => (s.setI 0x0FFE).setReg 0 0xC7) (fun t => (t.out, t.byteAt 0xFFE)) = some (⟨.dataBounds, 0xF033, 0x0FFE⟩, 0) := by decide
/-- Vector IM19. -/
theorem test_stRegs : oneStep 0xF155 (fun s => (((s.setI 0x400).setReg 0 0x11).setReg 1 0x22).setReg 2 0x33) (fun t => (t.i, t.byteAt 0x400, t.byteAt 0x401, t.byteAt 0x402)) = some (0x402, 0x11, 0x22, 0) := by decide
/-- Vector IM22. -/
theorem test_stRegs_dataBounds : oneStep 0xFF55 (fun s => (s.setI 0x0FF1).setReg 0 1) (fun t => (t.out, t.i, t.byteAt 0xFF1)) = some (⟨.dataBounds, 0xFF55, 0x0FF1⟩, 0x0FF1, 0) := by decide
/-- Vector IM25. -/
theorem test_ldRegs_glyph_zero : oneStep 0xF265 (fun s => s.setReg 3 0x77) (fun t => (t.reg 0, t.reg 1, t.reg 2, t.reg 3, t.i)) = some (0xF0, 0x90, 0x90, 0x77, 3) := by decide
/-- Vector IM27. -/
theorem test_ldRegs_dataBounds : oneStep 0xF165 (fun s => (s.setI 0x0FFF).setReg 0 0x55) (fun t => (t.out, t.reg 0)) = some (⟨.dataBounds, 0xF165, 0x0FFF⟩, 0x55) := by decide

/-! ## The machine around an instruction -/

/-- Vector CF21. -/
theorem test_step_illegal : oneStep 0x5121 (fun s => s) (fun t => (t.out, t.pc)) = some (⟨.invalidOpcode, 0x5121, 0x5121⟩, 0x0202) := by
  decide
/-- The skip at the top of memory, under the table of CF vectors. -/
theorem test_step_skip_at_top : oneStep 0x3000 (fun s => s.setPc 0x0FFE) (fun t => t.pc) = some 0x1002 := by decide
/-- The step after it. -/
theorem test_step_fetchBounds : after (fun t => (t.out, t.pc)) (step (State.reset.setPc 0x1002)) =
    some (⟨.fetchBounds, 0, 0x1002⟩, 0x1002) := by decide
/-- R36: the machine right after reset runs zeroed memory, which decodes as illegal (section 2.1 of spec/95_test_vectors.md). -/
theorem test_reset_runs_zeroed_memory : after (fun t => (t.out, t.pc)) (step State.reset) =
    some (⟨.invalidOpcode, 0, 0⟩, 0x0202) := by decide
/-- R180: a latched fault stops the step and is reported again. -/
theorem test_step_latched : after (fun t => (t.out, t.pc)) (step ((start 0x1234 fun s => s).latch .dataBounds 0xF033 0x0FFE)) =
    some (⟨.dataBounds, 0xF033, 0x0FFE⟩, 0x0200) := by decide
/-- R95: the report of a step without a fault. -/
theorem test_step_report : oneStep 0x1234 (fun s => s) (fun t => t.reportOut) = some (0, 0x1234, 0) := by decide
/-- The ticks below the KT table. -/
theorem test_tick : (({ State.reset with dt := 2, st := 1 } : State).tick.dt, ({ State.reset with dt := 2, st := 1 } : State).tick.tone)
    = (1, false) := by decide
theorem test_tick_stops_at_zero : (State.reset.tick.dt, State.reset.tick.st) = (0, 0) := by decide
/-- S6's bytes as an image: `ResetLoad` puts them from 0x0200 upward. -/
theorem test_resetLoad : after (fun t => (t.byteAt 0x200, t.byteAt 0x201, t.byteAt 0x202, t.pc, t.byteAt 79)) (resetLoad [0xF4, 0x33]) =
    some (0xF4, 0x33, 0, 0x0200, 0x80) := by decide
theorem test_write_reset_value_unlists : (Memory.write [(0, 1)] 0 0xF0) = [] := by decide

/-! ## Witnesses: what meets the hypotheses of each statement -/

theorem witness_ResetLoadLeavesTableOfR36 : (List.replicate 3584 (0xAB : Byte)).length ≤ 3584 := by
  rw [List.length_replicate]
theorem witness_LoadIsRefusedExactlyAbove3584Bytes : 3584 < (List.replicate 3585 (0xAB : Byte)).length ∧
    (List.replicate 3584 (0xAB : Byte)).length ≤ 3584 := by
  rw [List.length_replicate, List.length_replicate]; decide

/-- The last address a word can be fetched from. -/
theorem witness_StepRunsTheDecodedInstruction : ∃ (s : State) (iw : Word) (ins : Instr),
    s.fault = .success ∧ s.pc.toNat = 0x0FFE ∧
    iw.toNat = 256 * (s.byteAt s.pc.toNat).toNat + (s.byteAt (s.pc.toNat + 1)).toNat ∧ decode iw = .ok ins :=
  ⟨start 0x3000 fun s => s.setPc 0x0FFE, 0x3000, .seImm 0 0, by decide⟩
theorem witness_IllegalWordRaisesInvalidOpcode : ∃ (s : State) (iw : Word), s.fault = .success ∧ s.pc.toNat = 0x0FFE ∧
    iw.toNat = 256 * (s.byteAt s.pc.toNat).toNat + (s.byteAt (s.pc.toNat + 1)).toNat ∧ legalWord iw = false :=
  ⟨start 0x01E0 fun s => s.setPc 0x0FFE, 0x01E0, by decide⟩
theorem witness_FetchAboveMemoryRaisesFetchBounds : (State.reset.setPc 0x0FFF).fault = .success ∧
    0x0FFE < (State.reset.setPc 0x0FFF).pc.toNat := by decide
theorem witness_LatchedFaultStopsEveryLaterStep : (State.reset.latch .keyIndex 0xE19E 16).fault ≠ .success := by decide
theorem witness_StepReportsWordOrLatch_success : ∃ s t : State, s.fault = .success ∧ step s = .next t ∧ t.fault = .success := by
  obtain ⟨t, h, ht⟩ := next_of_after (f := State.fault) (r := step (start 0x1200 id)) (a := .success) (by decide)
  exact ⟨_, t, rfl, h, ht⟩
theorem witness_StepReportsWordOrLatch_fault : ∃ s t : State, s.fault = .success ∧ step s = .next t ∧ t.fault ≠ .success := by
  obtain ⟨t, h, ht⟩ := next_of_after (f := State.fault) (r := step State.reset) (a := .invalidOpcode) (by decide)
  exact ⟨_, t, rfl, h, by rw [ht]; decide⟩
theorem witness_FaultsArePrecise_advanced : ∃ s t : State, s.fault = .success ∧ step s = .next t ∧ t.fault = .stackUnderflow := by
  obtain ⟨t, h, ht⟩ := next_of_after (f := State.fault) (r := step (start 0x00EE id)) (a := .stackUnderflow) (by decide)
  exact ⟨_, t, rfl, h, ht⟩
theorem witness_FaultsArePrecise_fetch : ∃ s t : State, s.fault = .success ∧ step s = .next t ∧ t.fault = .fetchBounds := by
  obtain ⟨t, h, ht⟩ := next_of_after (f := State.fault) (r := step (State.reset.setPc 0x0FFF)) (a := .fetchBounds) (by decide)
  exact ⟨_, t, rfl, h, ht⟩

/-- A state without a fault from which the instruction takes the fault. -/
def FaultsFrom (i : Instr) (s : State) (code : FaultCode) : Prop :=
  s.fault = .success ∧ ∃ t, exec i s = .next t ∧ t.fault = code

theorem faultsFrom {i : Instr} {s : State} {code : FaultCode} (hs : s.fault = .success)
    (h : after State.fault (exec i s) = some code) : FaultsFrom i s code := ⟨hs, next_of_after h⟩

theorem witness_ExecuteTimeFaultsAreTheTableOfR170_data : FaultsFrom (.ldB 0) (State.reset.setI 0x0FFE) .dataBounds :=
  faultsFrom rfl (by decide)
theorem witness_ExecuteTimeFaultsAreTheTableOfR170_overflow : FaultsFrom (.call 0x300) { State.reset with sp := 16 } .stackOverflow :=
  faultsFrom rfl (by decide)
theorem witness_ExecuteTimeFaultsAreTheTableOfR170_underflow : FaultsFrom .ret State.reset .stackUnderflow :=
  faultsFrom rfl (by decide)
theorem witness_ExecuteTimeFaultsAreTheTableOfR170_key : FaultsFrom (.sknp 1) (State.reset.setReg 1 16) .keyIndex :=
  faultsFrom rfl (by decide)
theorem witness_SelfJumpIsAFixedPoint : ∃ (s : State) (addr : Addr), s.fault = .success ∧ s.pc.toNat ≤ 0x0FFE ∧
    decode s.fetchWord = .ok (.jp addr) ∧ addr.toNat = s.pc.toNat := ⟨start 0x1200 id, 0x200, by decide⟩
theorem witness_PlacedWordIsFetchedNext : decodeTableWord 16 0xFF65 = some (.ldRegs 0xF) ∧ State.reset.fault = .success ∧
    State.reset.pc.toNat ≤ 0x0FFE := by decide
/-- A latched fault and a `pc` outside memory do not keep the placed word from being fetched. -/
theorem witness_PlacedWordIsFetchedNext_latched :
    after State.pc (step ((State.reset.setPc 0x0FFF).latch .fetchBounds 0 0x0FFF |>.withFetchWord 16 0x1234)) = some 0x0234 := by
  decide
theorem witness_EncodeOfDecode : decode 0x8AB4 = .ok (.addReg 0xA 0xB) := by decide
theorem witness_InstructionWordsAreTheCoveredOnes : (∃ r ∈ opcodeRows, r.covers 0xFE65 = true) ∧
    ¬ ∃ r ∈ opcodeRows, r.covers 0x01E0 = true := by decide
theorem witness_RetPopsTheStack : ({ State.reset with sp := 1 } : State).sp.val ≠ 0 ∧
    ((0 : Fin 16).val + 1 = ({ State.reset with sp := 1 } : State).sp.val) ∧
    ((15 : Fin 16).val + 1 = ({ State.reset with sp := 16 } : State).sp.val) := by decide
theorem witness_CallPushesTheAdvancedPc : State.reset.sp.val ≠ 16 ∧ ({ State.reset with sp := 15 } : State).sp.val ≠ 16 := by decide
theorem witness_StackFaultsLeaveTheStack : ({ State.reset with sp := 16 } : State).sp.val = 16 ∧ State.reset.sp.val = 0 := by decide
theorem witness_RetAfterCallReturns : ({ State.reset with sp := 15 } : State).sp.val ≠ 16 := by decide
theorem witness_BitwiseOperationsClearVF : (0xE : Nibble) ≠ 0xF := by decide
theorem witness_AddRegistersWithCarry : (0x0 : Nibble) ≠ 0xF := by decide
theorem witness_SubtractionsWithNoBorrowFlag : (0x1 : Nibble) ≠ 0xF := by decide
theorem witness_ShiftsOfVyWithShiftedOutBit : (0x7 : Nibble) ≠ 0xF := by decide
theorem witness_OnlyFlagWritersChangeVF : (∃ t, exec (.ldImm 0xE 1) State.reset = .next t) ∧ mayChangeVF (.ldImm 0xE 1) = false :=
  ⟨⟨_, rfl⟩, rfl⟩
theorem witness_BcdStoresThreeDigits : (State.reset.setI 4093).i.toNat + 2 = 4095 := by decide
theorem witness_StoreRegistersThroughI : (State.reset.setI 4080).i.toNat + (0xF : Nibble).toNat = 4095 := by decide
theorem witness_LoadRegistersThroughI : (State.reset.setI 4095).i.toNat + (0x0 : Nibble).toNat = 4095 := by decide
/-- The state after the store, brought back to the first `I`. -/
theorem witness_StoreThenLoadRestoresRegisters : ∃ (x : Nibble) (s t s' : State), s.i.toNat + x.toNat ≤ 4095 ∧
    exec (.stRegs x) s = .next t ∧ Keeps t s' .mem ∧ s'.i = s.i := by
  obtain ⟨t, h, -⟩ := next_of_after (f := State.fault) (r := exec (.stRegs 0xF) (State.reset.setI 4080)) (a := .success) (by decide)
  exact ⟨0xF, _, t, t.setI 4080, by decide, h, fun _ => rfl, rfl⟩
theorem witness_AccessAboveMemoryTakesDataBounds : 4095 < (State.reset.setI 4094).i.toNat + 2 ∧
    4095 < (State.reset.setI 4095).i.toNat + (0x1 : Nibble).toNat ∧
    (1 ≤ (0x2 : Nibble).toNat ∧ 4095 < (State.reset.setI 4095).i.toNat + (0x2 : Nibble).toNat - 1) := by decide
/-- The store goes to the address of the next fetch. -/
theorem witness_StoredWordIsFetchedNext : ∃ (x k k' : Nibble) (s t : State), s.i.toNat + x.toNat ≤ 4095 ∧
    exec (.stRegs x) s = .next t ∧ k'.toNat = k.toNat + 1 ∧ k'.toNat ≤ x.toNat ∧ t.pc.toNat = s.i.toNat + k.toNat := by
  obtain ⟨t, h, ht⟩ := next_of_after (f := fun t => t.pc.toNat) (r := exec (.stRegs 1) (State.reset.setI 0x0200)) (a := 0x0200) (by decide)
  exact ⟨1, 0, 1, _, t, by decide, h, by decide, by decide, ht⟩
theorem witness_DrwXorsSpriteAndReportsCollision_bounds :
    ((0x0 : Nibble).toNat = 0 ∨ (State.reset.setI 0xFFFF).i.toNat + (0x0 : Nibble).toNat - 1 ≤ 4095) ∧
    (State.reset.setI 0x0FF1).i.toNat + (0xF : Nibble).toNat - 1 = 4095 := by decide
theorem witness_DrwXorsSpriteAndReportsCollision_collides : ∃ r c,
    (light 0 3 State.reset).pixel r c = true ∧ spritePixel (light 0 3 State.reset) 0 0 1 r c = true := ⟨0, 3, by decide⟩
theorem witness_DrwXorsSpriteAndReportsCollision_misses : ∀ r c,
    ¬ (State.reset.pixel r c = true ∧ spritePixel State.reset 0 0 1 r c = true) := by
  intro r c h
  have : State.reset.pixel r c = false := by unfold State.pixel State.reset blankScreen; split <;> simp
  rw [this] at h; cases h.1
/-- The state after the first drawing itself. -/
theorem witness_DrawingTwiceRestoresTheScreen : ∃ (x y n : Nibble) (s t s' : State),
    (n.toNat = 0 ∨ s.i.toNat + n.toNat - 1 ≤ 4095) ∧ exec (.drw x y n) s = .next t ∧ Keeps t s' .screen ∧ Keeps s s' .mem ∧
    s'.i = s.i ∧ s'.reg x = s.reg x ∧ s'.reg y = s.reg y := by
  obtain ⟨t, h, ht⟩ := next_of_after (f := fun t => (t.i, t.reg 0, t.reg 1, t.mem)) (r := exec (.drw 0 1 5) State.reset)
    (a := (0, 0, 0, [])) (by decide)
  injection ht with h1 ht; injection ht with h2 ht; injection ht with h3 h4
  exact ⟨0, 1, 5, State.reset, t, t, by decide, h, fun _ _ => rfl, fun a => by unfold State.byteAt; rw [h4]; rfl,
    h1, by rw [h2]; decide, by rw [h3]; decide⟩
theorem witness_KeySkips : ((State.reset.setReg 1 15).reg 1).toNat = (15 : Fin 16).val ∧
    ((State.reset.setReg 1 0).reg 1).toNat = (0 : Fin 16).val := by decide
theorem witness_KeyNumberAbove15TakesKeyIndex : 15 < ((State.reset.setReg 1 16).reg 1).toNat := by decide
/-- Two keys down: the highest is the last of them. -/
theorem witness_KeyWaitCompletesOnRelease_pressed : (press 2 (press 9 State.reset)).keys[(9 : Fin 16)] = true ∧
    ∀ j : Fin 16, 9 < j → (press 2 (press 9 State.reset)).keys[j] = false := by decide
theorem witness_KeyWaitCompletesOnRelease_released :
    (∀ k : Fin 16, ({ State.reset with lkKey := 15, lkPressed := true } : State).keys[k] = false) ∧
    ({ State.reset with lkKey := 15, lkPressed := true } : State).lkPressed = true := by decide
theorem witness_KeyWaitCompletesOnRelease_waiting : (∀ k : Fin 16, State.reset.keys[k] = false) ∧ State.reset.lkPressed = false := by
  decide
theorem witness_PressThenReleaseEndsTheKeyWait : ∃ (s : State) (x : Nibble) (k : Fin 16), s.fault = .success ∧
    s.pc.toNat ≤ 0x0FFE ∧ decode s.fetchWord = .ok (.ldVxK x) ∧ s.keys[k] = true ∧ ∀ j : Fin 16, k < j → s.keys[j] = false :=
  ⟨start 0xFF0A (press 15), 0xF, 15, by decide⟩
theorem witness_InstructionsWriteOnlyTheirElements : ∃ t, exec (.addReg 0 0xF) State.reset = .next t := ⟨_, rfl⟩
theorem witness_NoStepReadsTheSoundTimer : ∃ t, step (start 0xF518 id) = .next t := ⟨_, rfl⟩

/-- A state of canonical memory whose step stores into it. -/
theorem witness_StepKeepsMemoryCanonical : ∃ s t : State, s.mem.wf = true ∧ step s = .next t ∧ t.byteAt 0x300 = 2 := by
  obtain ⟨t, h, ht⟩ := next_of_after (f := fun t => t.byteAt 0x300)
    (r := step (start 0xF033 fun s => (s.setI 0x300).setReg 0 0xFE)) (a := 2) (by decide)
  exact ⟨_, t, by decide, h, ht⟩
/-- The largest `pc` that a run can reach, and a step from the word before the end of memory. -/
theorem witness_StepKeepsPcAndStackBounded : PcBounded (State.reset.setPc 0x10FE) ∧
    PcBounded (start 0xBFFF fun s => (s.setPc 0x0FFE).setReg 0 0xFF) := by
  refine ⟨⟨by decide, ?_⟩, ⟨by decide, ?_⟩⟩ <;> decide
theorem witness_StepKeepsLatchAndReportSound : LatchSound State.reset ∧ ReportSound State.reset ∧
    ∃ t, step State.reset = .next t := ⟨⟨rfl, rfl⟩, fun h => absurd rfl h, ⟨_, rfl⟩⟩
/-- A latched state that is sound: the underflow a run takes with an empty stack. -/
theorem witness_StepKeepsLatchAndReportSound_latched :
    LatchSound ((State.reset.latch .stackUnderflow 0x00EE 0).report 0x00EE) ∧
    ReportSound ((State.reset.latch .stackUnderflow 0x00EE 0).report 0x00EE) := ⟨⟨rfl, rfl, rfl⟩, fun _ => ⟨rfl, rfl, rfl⟩⟩
theorem witness_ReachableStatesMeetTheInvariant : Reachable State.reset := .load [] _ rfl
/-- Reachable with a latched fault, a held key and a tick. -/
theorem witness_ReachableStatesMeetTheInvariant_latched : ∃ s : State, Reachable s ∧ s.fault = .invalidOpcode := by
  obtain ⟨t, h, ht⟩ := next_of_after (f := State.fault) (r := step State.reset) (a := .invalidOpcode) (by decide)
  exact ⟨_, .tick _ (.setKeys _ (Vector.replicate 16 true) (.step _ _ (.load [] _ rfl) h)), ht⟩

end Sys2Proof.Tests
end

namespace Sys2Proof.Machine

/-! ## The words of an instruction (30_encoding R70 to R76)

Decoding an instruction's word gives it back, and a word that decodes is the word of its instruction; so the words of an
instruction are exactly the one with the number of its encoding, which is how every `EncodedAs` below is proved. -/

/-- The decoder reads back every operand, at every value (R74, R82). -/
theorem decode_encode (i : Instr) : decode (encode i) = .ok i := by
  cases i with
  | cls | ret => decide
  | jp | call | ldI | jpV0 => simp [encode, decode]
  | seImm | sneImm | ldImm | addImm | rnd => simp [encode, decode]
  | seReg | sneReg => simp [encode, decode, decodeRegSkip]
  | drw => simp [encode, decode]
  | ldReg | orReg | andReg | xorReg | addReg | sub | shr | subn | shl => simp [encode, decode, decodeFamily8]
  | skp | sknp => simp [encode, decode, decodeFamilyE]
  | ldVxDt | ldDtVx | ldStVx | ldVxK | addI | ldF | ldB | stRegs | ldRegs => simp [encode, decode, decodeFamilyF]

/-! ### A word that decodes is the word of its instruction: every fixed digit is compared (R76) -/

theorem formatAddr_of_fields {iw : Word} {op : Nibble} {addr : Addr} (hop : fieldOp iw = op)
    (haddr : fieldAddr iw = addr) : formatAddr op addr = iw := by
  rw [← hop, ← haddr, formatAddr_fields]

theorem formatXKK_of_fields {iw : Word} {op : Nibble} {kk : Byte} (hop : fieldOp iw = op) (hkk : fieldKK iw = kk) :
    formatXKK op (fieldX iw) kk = iw := by
  rw [← hop, ← hkk, formatXKK_fields]

theorem formatXYN_of_fields {iw : Word} {op n : Nibble} (hop : fieldOp iw = op) (hn : fieldN iw = n) :
    formatXYN op (fieldX iw) (fieldY iw) n = iw := by
  rw [← hop, ← hn, formatXYN_fields]

/-- An answer of the decoder to the word `iw` that, where it is an instruction, is the one `iw` encodes. -/
def SoundAnswer (iw : Word) (answer : Except DecodeError Instr) : Prop := ∀ i, answer = .ok i → encode i = iw

theorem SoundAnswer.ok {iw : Word} {i : Instr} (h : encode i = iw) : SoundAnswer iw (.ok i) := by
  intro j hj
  cases hj
  exact h

theorem SoundAnswer.error (iw : Word) (e : DecodeError) : SoundAnswer iw (.error e) := by
  intro j hj
  cases hj

theorem SoundAnswer.ite {iw : Word} {c : Prop} [Decidable c] {a b : Except DecodeError Instr}
    (ha : c → SoundAnswer iw a) (hb : ¬ c → SoundAnswer iw b) : SoundAnswer iw (if c then a else b) :=
  iteInduction ha hb

theorem SoundAnswer.decodeFamily0 {iw : Word} (hop : fieldOp iw = 0x0) : SoundAnswer iw (decodeFamily0 iw) :=
  .ite (fun h => .ok (formatAddr_of_fields hop h)) fun _ =>
  .ite (fun h => .ok (formatAddr_of_fields hop h)) fun _ =>
  .error iw _

theorem SoundAnswer.decodeRegSkip {make : Nibble → Nibble → Instr} {op : Nibble} {iw : Word}
    (hmake : ∀ x y, encode (make x y) = formatXYN op x y 0x0) (hop : fieldOp iw = op) :
    SoundAnswer iw (decodeRegSkip make iw) :=
  .ite (fun h => .ok ((hmake _ _).trans (formatXYN_of_fields hop h))) fun _ => .error iw _

theorem SoundAnswer.decodeFamily8 {iw : Word} (hop : fieldOp iw = 0x8) : SoundAnswer iw (decodeFamily8 iw) := by
  unfold Sys2Proof.decodeFamily8
  iterate 9 refine .ite (fun h => .ok (formatXYN_of_fields hop h)) fun _ => ?_
  exact .error iw _

theorem SoundAnswer.decodeFamilyE {iw : Word} (hop : fieldOp iw = 0xE) : SoundAnswer iw (decodeFamilyE iw) :=
  .ite (fun h => .ok (formatXKK_of_fields hop h)) fun _ =>
  .ite (fun h => .ok (formatXKK_of_fields hop h)) fun _ =>
  .error iw _

theorem SoundAnswer.decodeFamilyF {iw : Word} (hop : fieldOp iw = 0xF) : SoundAnswer iw (decodeFamilyF iw) := by
  unfold Sys2Proof.decodeFamilyF
  iterate 9 refine .ite (fun h => .ok (formatXKK_of_fields hop h)) fun _ => ?_
  exact .error iw _

/-- Branch by branch, as the decoder tests the top nibble. -/
theorem SoundAnswer.decode (iw : Word) : SoundAnswer iw (decode iw) :=
  .ite .decodeFamily0 fun h0 =>
  .ite (fun h => .ok (formatAddr_of_fields h rfl)) fun h1 =>
  .ite (fun h => .ok (formatAddr_of_fields h rfl)) fun h2 =>
  .ite (fun h => .ok (formatXKK_of_fields h rfl)) fun h3 =>
  .ite (fun h => .ok (formatXKK_of_fields h rfl)) fun h4 =>
  .ite (.decodeRegSkip (fun _ _ => rfl)) fun h5 =>
  .ite (fun h => .ok (formatXKK_of_fields h rfl)) fun h6 =>
  .ite (fun h => .ok (formatXKK_of_fields h rfl)) fun h7 =>
  .ite .decodeFamily8 fun h8 =>
  .ite (.decodeRegSkip (fun _ _ => rfl)) fun h9 =>
  .ite (fun h => .ok (formatAddr_of_fields h rfl)) fun hA =>
  .ite (fun h => .ok (formatAddr_of_fields h rfl)) fun hB =>
  .ite (fun h => .ok (formatXKK_of_fields h rfl)) fun hC =>
  .ite (fun h => .ok (formatXYN_of_fields h rfl)) fun hD =>
  .ite .decodeFamilyE fun hE =>
  .decodeFamilyF (by bv_omega)

theorem encode_of_decode {iw : Word} {i : Instr} (h : decode iw = .ok i) : encode i = iw :=
  SoundAnswer.decode iw i h

/-- An instruction has one word, so its words are known by the number of that word. -/
theorem encodedAs_of_encode {i : Instr} {w : Nat} (h : (encode i).toNat = w) : EncodedAs i w := by
  intro iw
  constructor
  · intro hd
    rw [← h, encode_of_decode hd]
  · intro hw
    rw [BitVec.eq_of_toNat_eq (hw.trans h.symm), decode_encode]

theorem encodedAs_of_formatAddr {i : Instr} (op : Nibble) {addr : Addr} (h : encode i = formatAddr op addr) :
    EncodedAs i (4096 * op.toNat + addr.toNat) :=
  encodedAs_of_encode (by rw [h, formatAddr_toNat]; omega)

theorem encodedAs_of_formatXKK {i : Instr} (op : Nibble) {x : Nibble} {kk : Byte}
    (h : encode i = formatXKK op x kk) :
    EncodedAs i (4096 * op.toNat + 256 * x.toNat + kk.toNat) :=
  encodedAs_of_encode (by rw [h, formatXKK_toNat]; omega)

theorem encodedAs_of_formatXYN {i : Instr} (op n : Nibble) {x y : Nibble} (h : encode i = formatXYN op x y n) :
    EncodedAs i (4096 * op.toNat + n.toNat + 256 * x.toNat + 16 * y.toNat) :=
  encodedAs_of_encode (by rw [h, formatXYN_toNat]; omega)

/-! ## Frames (10_state R37) -/

@[simp] theorem State.pixel_setPc (s : State) (w : Word) (r c : Nat) : (s.setPc w).pixel r c = s.pixel r c := rfl
@[simp] theorem State.byteAt_setPc (s : State) (w : Word) (a : Nat) : (s.setPc w).byteAt a = s.byteAt a := rfl

theorem Keeps.refl (s : State) (p : Part) : Keeps s s p := by
  cases p <;> simp [Keeps]

theorem KeepsAllBut.refl (s : State) (changed : List Part) : KeepsAllBut s s changed := fun p _ => Keeps.refl s p

theorem KeepsAllBut.setPc (s : State) (w : Word) : KeepsAllBut s (s.setPc w) [.pc] := by
  intro p hp
  cases p with
  | pc => exact absurd (List.mem_singleton.mpr rfl) hp
  | _ => simp [Keeps]

theorem KeepsAllBut.skipIf (s : State) (c : Bool) : KeepsAllBut s (s.skipIf c) [.pc] := by
  cases c with
  | false => exact KeepsAllBut.refl s _
  | true => exact KeepsAllBut.setPc s _

/-! ## Jumps and skips (41_control_flow R101, R103 to R107, R109) -/

/-- The sum of R107 is at most 0x10FE, so the 16-bit addition does not wrap. -/
theorem zextAddr_add_zextByte_toNat (addr : Addr) (b : Byte) :
    (zextAddr addr + zextByte b).toNat = addr.toNat + b.toNat := by
  have ha := addr.isLt
  have hb := b.isLt
  rw [BitVec.toNat_add, zextAddr_toNat, zextByte_toNat]
  omega

theorem State.skipIf_beq_pc (s : State) (a b : Byte) :
    (s.skipIf (a == b)).pc = if a.toNat = b.toNat then s.pc + 2 else s.pc := by
  simp [BitVec.toNat_inj]

theorem State.skipIf_bne_pc (s : State) (a b : Byte) :
    (s.skipIf (a != b)).pc = if a.toNat = b.toNat then s.pc else s.pc + 2 := by
  simp [BitVec.toNat_inj]

/-! ### The arms of `exec` -/

theorem exec_jp (addr : Addr) (s : State) : exec (.jp addr) s = .next (s.setPc (zextAddr addr)) := rfl
theorem exec_jpV0 (addr : Addr) (s : State) :
    exec (.jpV0 addr) s = .next (s.setPc (zextAddr addr + zextByte (s.reg 0))) := rfl
theorem exec_seImm (x : Nibble) (kk : Byte) (s : State) :
    exec (.seImm x kk) s = .next (s.skipIf (s.reg x == kk)) := rfl
theorem exec_sneImm (x : Nibble) (kk : Byte) (s : State) :
    exec (.sneImm x kk) s = .next (s.skipIf (s.reg x != kk)) := rfl
theorem exec_seReg (x y : Nibble) (s : State) :
    exec (.seReg x y) s = .next (s.skipIf (s.reg x == s.reg y)) := rfl
theorem exec_sneReg (x y : Nibble) (s : State) :
    exec (.sneReg x y) s = .next (s.skipIf (s.reg x != s.reg y)) := rfl

/-! ### The obligations -/

/-- Settles O23: the target is `zextAddr`, and `setPc` writes nothing but `pc`. -/
theorem jpSetsPc : Obligations.JpSetsPc := by
  intro addr
  refine ⟨encodedAs_of_formatAddr 0x1 rfl, fun s => ?_⟩
  exact ⟨_, exec_jp addr s, zextAddr_toNat addr, .setPc s _⟩

/-- Settles O24: the 16-bit sum is the sum over the naturals. -/
theorem jpV0AddsV0 : Obligations.JpV0AddsV0 := by
  intro addr
  refine ⟨encodedAs_of_formatAddr 0xB rfl, fun s => ?_⟩
  exact ⟨_, exec_jpV0 addr s, zextAddr_add_zextByte_toNat addr (s.reg 0), .setPc s _⟩

/-- Settles O25: both are `skipIf` on the comparison of two bytes. -/
theorem immediateSkips : Obligations.ImmediateSkips := by
  intro x kk
  refine ⟨encodedAs_of_formatXKK 0x3 rfl, encodedAs_of_formatXKK 0x4 rfl, fun s => ⟨?_, ?_⟩⟩
  · exact ⟨_, exec_seImm x kk s, s.skipIf_beq_pc _ _, .skipIf s _⟩
  · exact ⟨_, exec_sneImm x kk s, s.skipIf_bne_pc _ _, .skipIf s _⟩

/-- Settles O26: as O25, with `V[y]` the second byte. -/
theorem registerSkips : Obligations.RegisterSkips := by
  intro x y
  refine ⟨encodedAs_of_formatXYN 0x5 0x0 rfl, encodedAs_of_formatXYN 0x9 0x0 rfl, fun s => ⟨?_, ?_⟩⟩
  · exact ⟨_, exec_seReg x y s, s.skipIf_beq_pc _ _, .skipIf s _⟩
  · exact ⟨_, exec_sneReg x y s, s.skipIf_bne_pc _ _, .skipIf s _⟩

end Sys2Proof.Machine

namespace Sys2Proof.Machine

/-! ## Register writes and their frames (10_state R21, R22, R37) -/

theorem Keeps.trans {s t u : State} {p : Part} (hst : Keeps s t p) (htu : Keeps t u p) : Keeps s u p := by
  cases p with
  | regs | stack | keys | mem => exact fun k => (htu k).trans (hst k)
  | screen => exact fun r c => (htu r c).trans (hst r c)
  | keyRecord =>
    obtain ⟨hkey, hpressed⟩ := hst
    obtain ⟨hkey', hpressed'⟩ := htu
    exact ⟨hkey'.trans hkey, hpressed'.trans hpressed⟩
  | latch =>
    obtain ⟨hcode, hiw, hinfo⟩ := hst
    obtain ⟨hcode', hiw', hinfo'⟩ := htu
    exact ⟨hcode'.trans hcode, hiw'.trans hiw, hinfo'.trans hinfo⟩
  | _ => exact Eq.trans htu hst

theorem KeepsAllBut.trans {s t u : State} {changed : List Part} (hst : KeepsAllBut s t changed)
    (htu : KeepsAllBut t u changed) : KeepsAllBut s u changed := fun p hp => (hst p hp).trans (htu p hp)

theorem KeepsRegsBut.setReg (s : State) (x : Nibble) (b : Byte) : KeepsRegsBut s (s.setReg x b) [x] := by
  intro r hr
  exact s.reg_setReg_other b (List.ne_of_not_mem_cons hr)

theorem KeepsAllBut.setReg (s : State) (x : Nibble) (b : Byte) : KeepsAllBut s (s.setReg x b) [.regs] := by
  intro p hp
  cases p with
  | regs => exact absurd (List.mem_singleton.mpr rfl) hp
  | _ => simp [Keeps]

theorem State.reg_setRegFlag_vf (s : State) (x : Nibble) (b : Byte) (f : Bool) :
    (s.setRegFlag x b f).reg 0xF = flagByte f :=
  State.reg_setReg_same _ vf _

theorem State.reg_setRegFlag_dest (s : State) {x : Nibble} (b : Byte) (f : Bool) (hx : x ≠ 0xF) :
    (s.setRegFlag x b f).reg x = b := by
  rw [State.reg_setRegFlag, if_neg hx, if_pos rfl]

theorem KeepsRegsBut.setRegFlag (s : State) (x : Nibble) (b : Byte) (f : Bool) :
    KeepsRegsBut s (s.setRegFlag x b f) [x, 0xF] := by
  intro r hr
  have hx : r ≠ x := List.ne_of_not_mem_cons hr
  have hvf : r ≠ vf := List.ne_of_not_mem_cons (List.not_mem_of_not_mem_cons hr)
  rw [State.reg_setRegFlag, if_neg hvf, if_neg hx]

theorem KeepsAllBut.setRegFlag (s : State) (x : Nibble) (b : Byte) (f : Bool) :
    KeepsAllBut s (s.setRegFlag x b f) [.regs] :=
  (KeepsAllBut.setReg s x b).trans (KeepsAllBut.setReg (s.setReg x b) vf (flagByte f))

/-! ## The ALU (42_load_and_alu R120 to R130, R132, R133) -/

/-! ### The arms of `exec` -/

theorem exec_ldImm (x : Nibble) (kk : Byte) (s : State) : exec (.ldImm x kk) s = .next (s.setReg x kk) := rfl
theorem exec_addImm (x : Nibble) (kk : Byte) (s : State) :
    exec (.addImm x kk) s = .next (s.setReg x (s.reg x + kk)) := rfl
theorem exec_ldReg (x y : Nibble) (s : State) : exec (.ldReg x y) s = .next (s.setReg x (s.reg y)) := rfl
theorem exec_orReg (x y : Nibble) (s : State) :
    exec (.orReg x y) s = .next (s.setRegFlag x (s.reg x ||| s.reg y) false) := rfl
theorem exec_andReg (x y : Nibble) (s : State) :
    exec (.andReg x y) s = .next (s.setRegFlag x (s.reg x &&& s.reg y) false) := rfl
theorem exec_xorReg (x y : Nibble) (s : State) :
    exec (.xorReg x y) s = .next (s.setRegFlag x (s.reg x ^^^ s.reg y) false) := rfl
theorem exec_addReg (x y : Nibble) (s : State) :
    exec (.addReg x y) s = .next (s.setRegFlag x (s.reg x + s.reg y) (carryOut (s.reg x) (s.reg y))) := rfl
theorem exec_sub (x y : Nibble) (s : State) :
    exec (.sub x y) s = .next (s.setRegFlag x (s.reg x - s.reg y) (noBorrow (s.reg x) (s.reg y))) := rfl
theorem exec_subn (x y : Nibble) (s : State) :
    exec (.subn x y) s = .next (s.setRegFlag x (s.reg y - s.reg x) (noBorrow (s.reg y) (s.reg x))) := rfl
theorem exec_shr (x y : Nibble) (s : State) :
    exec (.shr x y) s = .next (s.setRegFlag x (s.reg y >>> 1) (lowBit (s.reg y))) := rfl
theorem exec_shl (x y : Nibble) (s : State) :
    exec (.shl x y) s = .next (s.setRegFlag x (s.reg y <<< 1) (highBit (s.reg y))) := rfl

/-! ### Flags and results as numbers -/

theorem flagByte_decide_toNat (p : Prop) [Decidable p] : (flagByte (decide p)).toNat = if p then 1 else 0 := by
  simp [flagByte_toNat]

theorem flagByte_carryOut_toNat (a b : Byte) :
    (flagByte (carryOut a b)).toNat = if 255 < a.toNat + b.toNat then 1 else 0 :=
  flagByte_decide_toNat _

theorem flagByte_noBorrow_toNat (a b : Byte) :
    (flagByte (noBorrow a b)).toNat = if b.toNat ≤ a.toNat then 1 else 0 :=
  flagByte_decide_toNat _

/-- A flag that holds bit `k` of a byte is that binary digit of its number. -/
theorem flagByte_getLsbD_toNat (b : Byte) (k : Nat) : (flagByte (b.getLsbD k)).toNat = b.toNat / 2 ^ k % 2 := by
  rw [flagByte_toNat, ← Nat.toNat_testBit, BitVec.testBit_toNat, Bool.toNat, Bool.cond_eq_ite]

theorem flagByte_lowBit_toNat (b : Byte) : (flagByte (lowBit b)).toNat = b.toNat % 2 := by
  rw [lowBit, flagByte_getLsbD_toNat]
  omega

theorem flagByte_highBit_toNat (b : Byte) : (flagByte (highBit b)).toNat = b.toNat / 128 := by
  have hb := b.isLt
  rw [highBit, flagByte_getLsbD_toNat]
  omega

theorem byte_sub_toNat (a b : Byte) : ((a - b).toNat : Int) = (a.toNat - b.toNat : Int) % 256 := by
  have hb := b.isLt
  rw [BitVec.toNat_sub]
  omega

theorem byte_shiftRight_one_toNat (b : Byte) : (b >>> 1).toNat = b.toNat / 2 := by
  rw [BitVec.toNat_ushiftRight, Nat.shiftRight_one]

theorem byte_shiftLeft_one_toNat (b : Byte) : (b <<< 1).toNat = 2 * b.toNat % 256 := by
  rw [BitVec.toNat_shiftLeft, Nat.shiftLeft_eq, Nat.pow_one, Nat.mul_comm]

/-! ### What an instruction that writes a result and a flag does -/

/-- The effect of R126 to R130, with the result and the flag read as numbers: `toNum` is the reading of the result. -/
theorem exec_effect_of_setRegFlag {i : Instr} {s : State} {x : Nibble} {b : Byte} {f : Bool} {α : Type} {flag : Nat}
    {result : α} (toNum : Byte → α) (hexec : exec i s = .next (s.setRegFlag x b f))
    (hflag : (flagByte f).toNat = flag) (hresult : toNum b = result) :
    ∃ t, exec i s = .next t ∧ (t.reg 0xF).toNat = flag ∧ (x ≠ 0xF → toNum (t.reg x) = result) ∧
      KeepsRegsBut s t [x, 0xF] ∧ KeepsAllBut s t [.regs] := by
  refine ⟨_, hexec, ?_, fun hx => ?_, .setRegFlag s x b f, .setRegFlag s x b f⟩
  · rw [State.reg_setRegFlag_vf, hflag]
  · rw [State.reg_setRegFlag_dest s b f hx, hresult]

/-- The effect of R123 to R125, with the result given bit by bit. -/
theorem exec_effect_of_setRegFlag_false {i : Instr} {s : State} {x : Nibble} {b : Byte} {bit : Nat → Bool}
    (hexec : exec i s = .next (s.setRegFlag x b false)) (hbit : ∀ k, b.getLsbD k = bit k) :
    ∃ t, exec i s = .next t ∧ t.reg 0xF = 0 ∧ (x ≠ 0xF → ∀ k, (t.reg x).getLsbD k = bit k) ∧
      KeepsRegsBut s t [x, 0xF] ∧ KeepsAllBut s t [.regs] := by
  refine ⟨_, hexec, ?_, fun hx k => ?_, .setRegFlag s x b false, .setRegFlag s x b false⟩
  · exact State.reg_setRegFlag_vf s x b false
  · rw [State.reg_setRegFlag_dest s b false hx, hbit]

/-! ### The obligations -/

/-- Settles O28: all three are one `setReg`. -/
theorem loadsAndAddImmediateWriteVxOnly : Obligations.LoadsAndAddImmediateWriteVxOnly := by
  refine ⟨fun x kk => ?ldImm, fun x kk => ?addImm, fun x y => ?ldReg⟩
  case ldImm =>
    refine ⟨encodedAs_of_formatXKK 0x6 rfl, fun s => ?_⟩
    exact ⟨_, exec_ldImm x kk s, s.reg_setReg_same x _, .setReg s x _, .setReg s x _⟩
  case addImm =>
    refine ⟨encodedAs_of_formatXKK 0x7 rfl, fun s => ?_⟩
    refine ⟨_, exec_addImm x kk s, ?_, .setReg s x _, .setReg s x _⟩
    rw [State.reg_setReg_same, BitVec.toNat_add]
  case ldReg =>
    refine ⟨encodedAs_of_formatXYN 0x8 0x0 rfl, fun s => ?_⟩
    exact ⟨_, exec_ldReg x y s, s.reg_setReg_same x _, .setReg s x _, .setReg s x _⟩

/-- Settles O29: each writes its bitwise result and then the flag 0. -/
theorem bitwiseOperationsClearVF : Obligations.BitwiseOperationsClearVF := by
  intro x y
  refine ⟨encodedAs_of_formatXYN 0x8 0x1 rfl, encodedAs_of_formatXYN 0x8 0x2 rfl, encodedAs_of_formatXYN 0x8 0x3 rfl,
    fun s => ⟨?_, ?_, ?_⟩⟩
  · exact exec_effect_of_setRegFlag_false (exec_orReg x y s) fun _ => BitVec.getLsbD_or
  · exact exec_effect_of_setRegFlag_false (exec_andReg x y s) fun _ => BitVec.getLsbD_and
  · exact exec_effect_of_setRegFlag_false (exec_xorReg x y s) fun _ => BitVec.getLsbD_xor

/-- Settles O30: the flag is `carryOut` of the operands. -/
theorem addRegistersWithCarry : Obligations.AddRegistersWithCarry := by
  intro x y
  refine ⟨encodedAs_of_formatXYN 0x8 0x4 rfl, fun s => ?_⟩
  exact exec_effect_of_setRegFlag BitVec.toNat (exec_addReg x y s) (flagByte_carryOut_toNat _ _) (BitVec.toNat_add _ _)

/-- Settles O31: the flag is `noBorrow` of the operands, in the order of the subtraction. -/
theorem subtractionsWithNoBorrowFlag : Obligations.SubtractionsWithNoBorrowFlag := by
  intro x y
  refine ⟨encodedAs_of_formatXYN 0x8 0x5 rfl, encodedAs_of_formatXYN 0x8 0x7 rfl, fun s => ⟨?_, ?_⟩⟩
  · exact exec_effect_of_setRegFlag (fun b => (b.toNat : Int)) (exec_sub x y s) (flagByte_noBorrow_toNat _ _)
      (byte_sub_toNat _ _)
  · exact exec_effect_of_setRegFlag (fun b => (b.toNat : Int)) (exec_subn x y s) (flagByte_noBorrow_toNat _ _)
      (byte_sub_toNat _ _)

/-- Settles O32: the flag is the low or the high bit of `V[y]`. -/
theorem shiftsOfVyWithShiftedOutBit : Obligations.ShiftsOfVyWithShiftedOutBit := by
  intro x y
  refine ⟨encodedAs_of_formatXYN 0x8 0x6 rfl, encodedAs_of_formatXYN 0x8 0xE rfl, fun s => ⟨?_, ?_⟩⟩
  · exact exec_effect_of_setRegFlag BitVec.toNat (exec_shr x y s) (flagByte_lowBit_toNat _) (byte_shiftRight_one_toNat _)
  · exact exec_effect_of_setRegFlag BitVec.toNat (exec_shl x y s) (flagByte_highBit_toNat _) (byte_shiftLeft_one_toNat _)

end Sys2Proof.Machine

namespace Sys2Proof.Machine

/-! ## The words of family F (30_encoding R75)

Here the last byte is fixed, so `0xF000` and it make one literal and only `x` is left to add. -/

theorem encodedAs_of_familyF {i : Instr} {x : Nibble} (kk : Byte) (h : encode i = formatXKK 0xF x kk) :
    EncodedAs i (0xF000 + kk.toNat + 256 * x.toNat) := by
  rw [Nat.add_right_comm]
  exact encodedAs_of_formatXKK 0xF h

/-! ## Loads of `I` and additions to it (43_index_and_memory R140 to R142)

All three are one `setI`, so they share its frame and differ only in the number they write. -/

@[simp] theorem State.pixel_setI (s : State) (w : Word) (r c : Nat) : (s.setI w).pixel r c = s.pixel r c := rfl
@[simp] theorem State.byteAt_setI (s : State) (w : Word) (a : Nat) : (s.setI w).byteAt a = s.byteAt a := rfl

theorem KeepsAllBut.setI (s : State) (w : Word) : KeepsAllBut s (s.setI w) [.index] := by
  intro p hp
  cases p with
  | index => exact absurd (List.mem_singleton.mpr rfl) hp
  | _ => simp [Keeps]

/-- The sum of R141 is reduced modulo 65536 (D11). -/
theorem add_zextByte_toNat (w : Word) (b : Byte) : (w + zextByte b).toNat = (w.toNat + b.toNat) % 65536 := by
  rw [BitVec.toNat_add, zextByte_toNat]

/-! ### The arms of `exec` -/

theorem exec_ldI (addr : Addr) (s : State) : exec (.ldI addr) s = .next (s.setI (zextAddr addr)) := rfl
theorem exec_addI (x : Nibble) (s : State) : exec (.addI x) s = .next (s.setI (s.i + zextByte (s.reg x))) := rfl
theorem exec_ldF (x : Nibble) (s : State) :
    exec (.ldF x) s = .next (s.setI (glyphAddress ((s.reg x).toNat % 16))) := rfl

/-! ### The obligations -/

/-- Settles O35: `I` becomes `zextAddr` of the address, or `glyphAddress` of the low nibble. -/
theorem indexLoadsSetI : Obligations.IndexLoadsSetI := by
  refine ⟨fun addr => ?ldI, fun x => ?ldF⟩
  case ldI =>
    refine ⟨encodedAs_of_formatAddr 0xA rfl, fun s => ?_⟩
    exact ⟨_, exec_ldI addr s, zextAddr_toNat addr, .setI s _⟩
  case ldF =>
    refine ⟨encodedAs_of_familyF 0x29 rfl, fun s => ?_⟩
    exact ⟨_, exec_ldF x s, glyphAddress_toNat (s.reg x), .setI s _⟩

/-- Settles O36: the 16-bit sum is the sum of the numbers modulo 65536, and `setI` writes no register. -/
theorem addToIndexWrapsWithoutFlag : Obligations.AddToIndexWrapsWithoutFlag := by
  intro x
  refine ⟨encodedAs_of_familyF 0x1E rfl, fun s => ?_⟩
  exact ⟨_, exec_addI x s, add_zextByte_toNat s.i (s.reg x), .setI s _⟩

end Sys2Proof.Machine

namespace Sys2Proof.Machine

/-! ## The framebuffer and its frame (10_state R31, R37) -/

theorem State.pixel_of_blank {s : State} (h : s.screen = blankScreen) (r c : Nat) : s.pixel r c = false := by
  rw [State.pixel_eq_litAt, h, litAt_blank]

theorem KeepsAllBut.withScreen (s : State) (scr : Screen) : KeepsAllBut s { s with screen := scr } [.screen] := by
  intro p hp
  cases p with
  | screen => exact absurd (List.mem_singleton.mpr rfl) hp
  | regs => exact State.reg_congr rfl
  | mem => exact State.byteAt_congr rfl
  | _ => simp [Keeps]

/-! ## Clearing the screen (44_display R150) -/

theorem exec_cls (s : State) : exec .cls s = .next { s with screen := blankScreen } := rfl

/-- Settles O43: the whole framebuffer is replaced by `blankScreen`. -/
theorem clsDarkensEveryPixel : Obligations.ClsDarkensEveryPixel := by
  refine ⟨encodedAs_of_encode rfl, fun s => ?_⟩
  exact ⟨_, exec_cls s, State.pixel_of_blank rfl, .withScreen s _⟩

end Sys2Proof.Machine

namespace Sys2Proof.Machine

/-! ## The decoder and the opcode map (30_encoding R74 to R77) -/

/-- Settles O14: `decode_encode`, for every instruction. -/
theorem decodeOfEncode : Obligations.DecodeOfEncode := decode_encode

/-- Settles O15: `encode_of_decode`, branch by branch of the decoder. -/
theorem encodeOfDecode : Obligations.EncodeOfDecode := fun _ _ => encode_of_decode

/-- Settles O18: six words, evaluated. -/
theorem sampleWordsDecode : Obligations.SampleWordsDecode := by
  unfold Obligations.SampleWordsDecode
  decide

/-! ### Bytes (R53) -/

theorem decodeBytes_of_decode {iw : Word} {i : Instr} (h : decode iw = .ok i) (rest : List Byte) :
    decodeBytes (highByte iw :: lowByte iw :: rest) = .ok (i, rest) := by
  simp [decodeBytes, wordOfBytes_bytes, h]

/-- Settles O19: the two bytes make the word again, and the word decodes. -/
theorem encodedBytesDecode : Obligations.EncodedBytesDecode := by
  intro i rest
  exact ⟨decodeBytes_of_decode (decode_encode i) rest, highByte_toNat (encode i)⟩

/-! ### Rows of the opcode map: what each mask compares -/

theorem covers_iff {v m w : Word} : OpcodeRow.covers ⟨v, m⟩ w = true ↔ w &&& m = v := by
  simp [OpcodeRow.covers]

/-- The mask `0xF000` compares the top nibble. -/
theorem fieldOp_of_covers {op : Nibble} {iw : Word} (h : OpcodeRow.covers ⟨formatAddr op 0, 0xF000⟩ iw = true) :
    fieldOp iw = op := by
  have hm : formatAddr (fieldOp iw) 0 = formatAddr op 0 := by
    rw [← formatAddr_maskOp _ (fieldAddr iw), formatAddr_fields, covers_iff.mp h]
  simpa using congrArg fieldOp hm

/-- The mask `0xF00F` compares the top and the bottom nibble. -/
theorem fieldOp_fieldN_of_covers {op n : Nibble} {iw : Word}
    (h : OpcodeRow.covers ⟨formatXYN op 0 0 n, 0xF00F⟩ iw = true) : fieldOp iw = op ∧ fieldN iw = n := by
  have hm : formatXYN (fieldOp iw) 0 0 (fieldN iw) = formatXYN op 0 0 n := by
    rw [← formatXYN_maskN _ (fieldX iw) (fieldY iw), formatXYN_fields, covers_iff.mp h]
  exact ⟨by simpa using congrArg fieldOp hm, by simpa using congrArg fieldN hm⟩

/-- The mask `0xF0FF` compares the top nibble and the low byte. -/
theorem fieldOp_fieldKK_of_covers {op : Nibble} {kk : Byte} {iw : Word}
    (h : OpcodeRow.covers ⟨formatXKK op 0 kk, 0xF0FF⟩ iw = true) : fieldOp iw = op ∧ fieldKK iw = kk := by
  have hm : formatXKK (fieldOp iw) 0 (fieldKK iw) = formatXKK op 0 kk := by
    rw [← formatXKK_maskKK _ (fieldX iw), formatXKK_fields, covers_iff.mp h]
  exact ⟨by simpa using congrArg fieldOp hm, by simpa using congrArg fieldKK hm⟩

/-- The mask `0xFFFF` compares the whole word. -/
theorem eq_of_covers {v iw : Word} (h : OpcodeRow.covers ⟨v, 0xFFFF⟩ iw = true) : v = iw := by
  rw [← covers_iff.mp h]
  exact BitVec.and_allOnes

/-! ### A word is an instruction exactly when a row covers it (R74) -/

theorem encodesItsRow : ∀ i : Instr, Laws.EncodesItsRow.Statement i
  | .cls => Laws.EncodesItsRow.cls
  | .ret => Laws.EncodesItsRow.ret
  | .jp a => Laws.EncodesItsRow.jp a
  | .call a => Laws.EncodesItsRow.call a
  | .seImm x kk => Laws.EncodesItsRow.seImm x kk
  | .sneImm x kk => Laws.EncodesItsRow.sneImm x kk
  | .seReg x y => Laws.EncodesItsRow.seReg x y
  | .sneReg x y => Laws.EncodesItsRow.sneReg x y
  | .ldImm x kk => Laws.EncodesItsRow.ldImm x kk
  | .addImm x kk => Laws.EncodesItsRow.addImm x kk
  | .ldReg x y => Laws.EncodesItsRow.ldReg x y
  | .orReg x y => Laws.EncodesItsRow.orReg x y
  | .andReg x y => Laws.EncodesItsRow.andReg x y
  | .xorReg x y => Laws.EncodesItsRow.xorReg x y
  | .addReg x y => Laws.EncodesItsRow.addReg x y
  | .sub x y => Laws.EncodesItsRow.sub x y
  | .shr x y => Laws.EncodesItsRow.shr x y
  | .subn x y => Laws.EncodesItsRow.subn x y
  | .shl x y => Laws.EncodesItsRow.shl x y
  | .ldI a => Laws.EncodesItsRow.ldI a
  | .jpV0 a => Laws.EncodesItsRow.jpV0 a
  | .rnd x kk => Laws.EncodesItsRow.rnd x kk
  | .drw x y n => Laws.EncodesItsRow.drw x y n
  | .skp x => Laws.EncodesItsRow.skp x
  | .sknp x => Laws.EncodesItsRow.sknp x
  | .ldVxDt x => Laws.EncodesItsRow.ldVxDt x
  | .ldDtVx x => Laws.EncodesItsRow.ldDtVx x
  | .ldStVx x => Laws.EncodesItsRow.ldStVx x
  | .ldVxK x => Laws.EncodesItsRow.ldVxK x
  | .addI x => Laws.EncodesItsRow.addI x
  | .ldF x => Laws.EncodesItsRow.ldF x
  | .ldB x => Laws.EncodesItsRow.ldB x
  | .stRegs x => Laws.EncodesItsRow.stRegs x
  | .ldRegs x => Laws.EncodesItsRow.ldRegs x

/-- The words that the row covers are words of instructions. -/
def CoversInstructions (r : OpcodeRow) : Prop := ∀ iw, r.covers iw = true → ∃ i, encode i = iw

theorem CoversInstructions.whole (i : Instr) : CoversInstructions ⟨encode i, 0xFFFF⟩ :=
  fun _ h => ⟨i, eq_of_covers h⟩

theorem CoversInstructions.addr (op : Nibble) (make : Addr → Instr) (h : ∀ a, encode (make a) = formatAddr op a) :
    CoversInstructions ⟨formatAddr op 0, 0xF000⟩ :=
  fun _ hc => ⟨make _, (h _).trans (formatAddr_of_fields (fieldOp_of_covers hc) rfl)⟩

theorem CoversInstructions.xkk (op : Nibble) (make : Nibble → Byte → Instr)
    (h : ∀ x kk, encode (make x kk) = formatXKK op x kk) : CoversInstructions ⟨formatAddr op 0, 0xF000⟩ :=
  fun _ hc => ⟨make _ _, (h _ _).trans (formatXKK_of_fields (fieldOp_of_covers hc) rfl)⟩

theorem CoversInstructions.xyn (op : Nibble) (make : Nibble → Nibble → Nibble → Instr)
    (h : ∀ x y n, encode (make x y n) = formatXYN op x y n) : CoversInstructions ⟨formatAddr op 0, 0xF000⟩ :=
  fun _ hc => ⟨make _ _ _, (h _ _ _).trans (formatXYN_of_fields (fieldOp_of_covers hc) rfl)⟩

theorem CoversInstructions.xy (op n : Nibble) (make : Nibble → Nibble → Instr)
    (h : ∀ x y, encode (make x y) = formatXYN op x y n) : CoversInstructions ⟨formatXYN op 0 0 n, 0xF00F⟩ := by
  intro iw hc
  obtain ⟨hop, hn⟩ := fieldOp_fieldN_of_covers hc
  exact ⟨make _ _, (h _ _).trans (formatXYN_of_fields hop hn)⟩

theorem CoversInstructions.x (op : Nibble) (kk : Byte) (make : Nibble → Instr)
    (h : ∀ x, encode (make x) = formatXKK op x kk) : CoversInstructions ⟨formatXKK op 0 kk, 0xF0FF⟩ := by
  intro iw hc
  obtain ⟨hop, hkk⟩ := fieldOp_fieldKK_of_covers hc
  exact ⟨make _, (h _).trans (formatXKK_of_fields hop hkk)⟩

theorem opcodeRowsControl_coverInstructions : ∀ r ∈ opcodeRowsControl, CoversInstructions r := by
  simp only [opcodeRowsControl, List.forall_mem_cons]
  exact ⟨.whole .cls, .whole .ret, .addr 0x1 .jp fun _ => rfl, .addr 0x2 .call fun _ => rfl,
    .xkk 0x3 .seImm fun _ _ => rfl, .xkk 0x4 .sneImm fun _ _ => rfl,
    .xy 0x5 0x0 .seReg fun _ _ => rfl, .xy 0x9 0x0 .sneReg fun _ _ => rfl, List.forall_mem_nil _⟩

theorem opcodeRowsAlu_coverInstructions : ∀ r ∈ opcodeRowsAlu, CoversInstructions r := by
  simp only [opcodeRowsAlu, List.forall_mem_cons]
  exact ⟨.xkk 0x6 .ldImm fun _ _ => rfl, .xkk 0x7 .addImm fun _ _ => rfl,
    .xy 0x8 0x0 .ldReg fun _ _ => rfl, .xy 0x8 0x1 .orReg fun _ _ => rfl, .xy 0x8 0x2 .andReg fun _ _ => rfl,
    .xy 0x8 0x3 .xorReg fun _ _ => rfl, .xy 0x8 0x4 .addReg fun _ _ => rfl, .xy 0x8 0x5 .sub fun _ _ => rfl,
    .xy 0x8 0x6 .shr fun _ _ => rfl, .xy 0x8 0x7 .subn fun _ _ => rfl, .xy 0x8 0xE .shl fun _ _ => rfl,
    List.forall_mem_nil _⟩

theorem opcodeRowsIndex_coverInstructions : ∀ r ∈ opcodeRowsIndex, CoversInstructions r := by
  simp only [opcodeRowsIndex, List.forall_mem_cons]
  exact ⟨.addr 0xA .ldI fun _ => rfl, .addr 0xB .jpV0 fun _ => rfl, .xkk 0xC .rnd fun _ _ => rfl,
    .xyn 0xD .drw fun _ _ _ => rfl, .x 0xE 0x9E .skp fun _ => rfl, .x 0xE 0xA1 .sknp fun _ => rfl,
    .x 0xF 0x07 .ldVxDt fun _ => rfl, .x 0xF 0x15 .ldDtVx fun _ => rfl, .x 0xF 0x18 .ldStVx fun _ => rfl,
    .x 0xF 0x0A .ldVxK fun _ => rfl, .x 0xF 0x1E .addI fun _ => rfl, .x 0xF 0x29 .ldF fun _ => rfl,
    .x 0xF 0x33 .ldB fun _ => rfl, .x 0xF 0x55 .stRegs fun _ => rfl, .x 0xF 0x65 .ldRegs fun _ => rfl,
    List.forall_mem_nil _⟩

theorem opcodeRows_coverInstructions : ∀ r ∈ opcodeRows, CoversInstructions r := by
  simp only [opcodeRows, List.forall_mem_append]
  exact ⟨⟨opcodeRowsControl_coverInstructions, opcodeRowsAlu_coverInstructions⟩, opcodeRowsIndex_coverInstructions⟩

theorem decode_ok_iff_covered (iw : Word) : (∃ i, decode iw = .ok i) ↔ ∃ r ∈ opcodeRows, r.covers iw = true := by
  constructor
  · rintro ⟨i, hi⟩
    obtain ⟨r, hr, hc⟩ := encodesItsRow i
    rw [encode_of_decode hi] at hc
    exact ⟨r, List.mem_of_getElem? hr, hc⟩
  · rintro ⟨r, hr, hc⟩
    obtain ⟨i, rfl⟩ := opcodeRows_coverInstructions r hr iw hc
    exact ⟨i, decode_encode i⟩

theorem legalWord_iff (iw : Word) : legalWord iw = true ↔ ∃ i, decode iw = .ok i := by
  rw [decode_ok_iff_covered, legalWord, List.any_eq_true]

/-! ### No two rows cover one word -/

/-- The rows ask for different values of some bit that both of them compare. -/
def Clash (r r' : OpcodeRow) : Prop := r.value &&& r'.mask ≠ r'.value &&& r.mask

theorem Clash.not_both_cover {r r' : OpcodeRow} (h : Clash r r') {iw : Word} (hr : r.covers iw = true) :
    ¬ r'.covers iw = true := by
  intro hr'
  apply h
  rw [← covers_iff.mp hr, ← covers_iff.mp hr', BitVec.and_assoc, BitVec.and_assoc, BitVec.and_comm r.mask]

theorem opcodeRows_clash : opcodeRows.Pairwise Clash := by
  unfold Clash
  decide

theorem length_le_one_of_clash {iw : Word} :
    ∀ {rows : List OpcodeRow}, rows.Pairwise Clash → (∀ r ∈ rows, r.covers iw = true) → rows.length ≤ 1
  | [], _, _ => Nat.zero_le 1
  | [_], _, _ => Nat.le_refl 1
  | r :: r' :: _, hclash, hcovers => by
    have hrr' : Clash r r' := List.rel_of_pairwise_cons hclash (List.mem_cons_self ..)
    exact absurd (hcovers r' (by simp)) (hrr'.not_both_cover (hcovers r (by simp)))

theorem filter_covers_length_le_one (iw : Word) : (opcodeRows.filter (·.covers iw)).length ≤ 1 :=
  length_le_one_of_clash (opcodeRows_clash.sublist List.filter_sublist) fun _ hr => (List.mem_filter.mp hr).2

/-- Settles O16: the rows cover the words of the instructions, and any two of them clash. -/
theorem instructionWordsAreTheCoveredOnes : Obligations.InstructionWordsAreTheCoveredOnes :=
  ⟨decode_ok_iff_covered, filter_covers_length_le_one⟩

/-! ### The illegal words, family by family (R77) -/

theorem fieldOp_eq_iff (iw : Word) (op : Nibble) : fieldOp iw = op ↔ iw.toNat / 4096 = op.toNat := by
  rw [← BitVec.toNat_inj, fieldOp_toNat]
theorem fieldN_eq_iff (iw : Word) (n : Nibble) : fieldN iw = n ↔ iw.toNat % 16 = n.toNat := by
  rw [← BitVec.toNat_inj, fieldN_toNat]
theorem fieldKK_eq_iff (iw : Word) (kk : Byte) : fieldKK iw = kk ↔ iw.toNat % 256 = kk.toNat := by
  rw [← BitVec.toNat_inj, fieldKK_toNat]
theorem fieldAddr_eq_iff (iw : Word) (a : Addr) : fieldAddr iw = a ↔ iw.toNat % 4096 = a.toNat := by
  rw [← BitVec.toNat_inj, fieldAddr_toNat]

theorem decodeFamily0_error_iff {iw : Word} (hop : iw.toNat / 4096 = 0) :
    decodeFamily0 iw = .error (.invalidOpcode iw) ↔ iw.toNat ≠ 0x00E0 ∧ iw.toNat ≠ 0x00EE := by
  simp [decodeFamily0, ite_eq_iff, fieldAddr_eq_iff]
  omega

theorem decodeRegSkip_error_iff (make : Nibble → Nibble → Instr) (iw : Word) :
    decodeRegSkip make iw = .error (.invalidOpcode iw) ↔ iw.toNat % 16 ≠ 0 := by
  simp [decodeRegSkip, fieldN_eq_iff]

theorem decodeFamily8_error_iff (iw : Word) : decodeFamily8 iw = .error (.invalidOpcode iw) ↔
    iw.toNat % 16 ∈ [0x8, 0x9, 0xA, 0xB, 0xC, 0xD, 0xF] := by
  simp [decodeFamily8, ite_eq_iff, fieldN_eq_iff]
  omega

theorem decodeFamilyE_error_iff (iw : Word) : decodeFamilyE iw = .error (.invalidOpcode iw) ↔
    iw.toNat % 256 ∉ [0x9E, 0xA1] := by
  simp [decodeFamilyE, ite_eq_iff, fieldKK_eq_iff]

theorem decodeFamilyF_error_iff (iw : Word) : decodeFamilyF iw = .error (.invalidOpcode iw) ↔
    iw.toNat % 256 ∉ [0x07, 0x0A, 0x15, 0x18, 0x1E, 0x29, 0x33, 0x55, 0x65] := by
  simp [decodeFamilyF, ite_eq_iff, fieldKK_eq_iff]
  omega

/-- Settles O17: family by family of the top nibble; ten of the sixteen refuse no word. -/
theorem illegalWordsByFamily : Obligations.IllegalWordsByFamily := by
  intro iw
  simp only [decode, fieldOp_eq_iff]
  have hfamily : iw.toNat / 4096 = 0 ∨ iw.toNat / 4096 = 5 ∨ iw.toNat / 4096 = 8 ∨ iw.toNat / 4096 = 9 ∨
      iw.toNat / 4096 = 14 ∨ iw.toNat / 4096 = 15 ∨
      (1 ≤ iw.toNat / 4096 ∧ iw.toNat / 4096 ≤ 4) ∨ (6 ≤ iw.toNat / 4096 ∧ iw.toNat / 4096 ≤ 7) ∨
      (10 ≤ iw.toNat / 4096 ∧ iw.toNat / 4096 ≤ 13) := by omega
  rcases hfamily with hop | hop | hop | hop | hop | hop | ⟨hlow, hhigh⟩ | ⟨hlow, hhigh⟩ | ⟨hlow, hhigh⟩
  · simp [hop, decodeFamily0_error_iff hop]
  · simp [hop, decodeRegSkip_error_iff]
  · simp [hop, decodeFamily8_error_iff]
  · simp [hop, decodeRegSkip_error_iff]
  · simp [hop, decodeFamilyE_error_iff]
  · simp [hop, decodeFamilyF_error_iff]
  all_goals interval_cases hop : iw.toNat / 4096 <;> simp

end Sys2Proof.Machine

namespace Sys2Proof.Machine

/-! ## The remaining named updates and the frame of each (10_state R37) -/

/-- Memory replaced. -/
def State.setMem (s : State) (m : Memory) : State := { s with mem := m }

/-- The record of the key wait (R30) replaced. -/
def State.setKeyRecord (s : State) (key : Nibble) (live : Bool) : State := { s with lkKey := key, lkPressed := live }

/-- The pop of R100, where `k` is the entry on top. -/
def State.popTo (s : State) (k : Fin 16) : State := { s with sp := k.castSucc, pc := s.stack[k] }

/-- The push and jump of R102, where `k` is the first free entry. -/
def State.pushTo (s : State) (k : Fin 16) (target : Word) : State :=
  { s with stack := s.stack.set k s.pc, sp := k.succ, pc := target }

@[simp] theorem State.reg_setMem (s : State) (m : Memory) (x : Nibble) : (s.setMem m).reg x = s.reg x := rfl
@[simp] theorem State.byteAt_setMem (s : State) (m : Memory) (a : Nat) : (s.setMem m).byteAt a = m.read a := rfl
@[simp] theorem State.reg_setKeyRecord (s : State) (k : Nibble) (b : Bool) (x : Nibble) :
    (s.setKeyRecord k b).reg x = s.reg x := rfl

theorem State.stack_pushTo (s : State) (j k : Fin 16) (target : Word) :
    (s.pushTo k target).stack[j] = if j.val = k.val then s.pc else s.stack[j] := by
  by_cases h : k.val = j.val
  · simp [State.pushTo, h]
  · simp [State.pushTo, h, Ne.symm h]

theorem KeepsAllBut.mono {s t : State} {changed changed' : List Part} (h : KeepsAllBut s t changed)
    (hsub : changed ⊆ changed') : KeepsAllBut s t changed' := fun p hp => h p fun hp' => hp (hsub hp')

/-- Two updates in turn change at most what one of them changes. -/
theorem KeepsAllBut.append {s t u : State} {changed changed' : List Part} (hst : KeepsAllBut s t changed)
    (htu : KeepsAllBut t u changed') : KeepsAllBut s u (changed ++ changed') :=
  (hst.mono (List.subset_append_left ..)).trans (htu.mono (List.subset_append_right ..))

theorem KeepsAllBut.setMem (s : State) (m : Memory) : KeepsAllBut s (s.setMem m) [.mem] := by
  intro p hp
  have hs := Keeps.refl s p
  cases p with
  | mem => exact absurd (List.mem_singleton.mpr rfl) hp
  | _ => exact hs

theorem KeepsAllBut.setKeyRecord (s : State) (k : Nibble) (live : Bool) :
    KeepsAllBut s (s.setKeyRecord k live) [.keyRecord] := by
  intro p hp
  have hs := Keeps.refl s p
  cases p with
  | keyRecord => exact absurd (List.mem_singleton.mpr rfl) hp
  | _ => exact hs

theorem KeepsAllBut.popTo (s : State) (k : Fin 16) : KeepsAllBut s (s.popTo k) [.pc, .sp] := by
  intro p hp
  have hs := Keeps.refl s p
  cases p with
  | pc | sp => simp at hp
  | _ => exact hs

theorem KeepsAllBut.pushTo (s : State) (k : Fin 16) (target : Word) :
    KeepsAllBut s (s.pushTo k target) [.pc, .sp, .stack] := by
  intro p hp
  have hs := Keeps.refl s p
  cases p with
  | pc | sp | stack => simp at hp
  | _ => exact hs

theorem KeepsAllBut.latch (s : State) (code : FaultCode) (iw info : Word) :
    KeepsAllBut s (s.latch code iw info) [.latch] := by
  intro p hp
  have hs := Keeps.refl s p
  cases p with
  | latch => exact absurd (List.mem_singleton.mpr rfl) hp
  | _ => exact hs

theorem KeepsAllBut.report (s : State) (iw : Word) : KeepsAllBut s (s.report iw) [.report] := by
  intro p hp
  have hs := Keeps.refl s p
  cases p with
  | report => exact absurd (List.mem_singleton.mpr rfl) hp
  | _ => exact hs

theorem KeepsAllBut.sampled (s : State) : KeepsAllBut s s.sampled [.draws] := by
  intro p hp
  have hs := Keeps.refl s p
  cases p with
  | draws => exact absurd (List.mem_singleton.mpr rfl) hp
  | _ => exact hs

theorem KeepsAllBut.withDelay (s : State) (b : Byte) : KeepsAllBut s { s with dt := b } [.delay] := by
  intro p hp
  have hs := Keeps.refl s p
  cases p with
  | delay => exact absurd (List.mem_singleton.mpr rfl) hp
  | _ => exact hs

theorem KeepsAllBut.withSound (s : State) (b : Byte) : KeepsAllBut s { s with st := b } [.sound] := by
  intro p hp
  have hs := Keeps.refl s p
  cases p with
  | sound => exact absurd (List.mem_singleton.mpr rfl) hp
  | _ => exact hs

theorem KeepsAllBut.setKeys (s : State) (k : Vector Bool 16) : KeepsAllBut s (s.setKeys k) [.keys] := by
  intro p hp
  have hs := Keeps.refl s p
  cases p with
  | keys => exact absurd (List.mem_singleton.mpr rfl) hp
  | _ => exact hs

theorem KeepsAllBut.tick (s : State) : KeepsAllBut s s.tick [.delay, .sound] := by
  intro p hp
  have hs := Keeps.refl s p
  cases p with
  | delay | sound => simp at hp
  | _ => exact hs

theorem KeepsAllBut.loadRegs (s : State) (k : Nat) (bs : List Byte) : KeepsAllBut s (s.loadRegs k bs) [.regs] := by
  induction bs generalizing s k with
  | nil => exact KeepsAllBut.refl s _
  | cons b bs ih => exact (KeepsAllBut.setReg s _ b).trans (ih _ _)

/-! ## What `exec` can do: its own fault, or its completed effect (40_step_cycle R94, 60_exceptions R178) -/

/-- The fault that an instruction takes in a state, with its information value: the table of R170. -/
inductive OwnFault (s : State) : Instr → FaultCode → Word → Prop
  | dataBounds {i : Instr} : 1 ≤ byteCount i → 4096 < s.i.toNat + byteCount i → OwnFault s i .dataBounds s.i
  | stackOverflow (addr : Addr) : s.sp.val = 16 → OwnFault s (.call addr) .stackOverflow 16
  | stackUnderflow : s.sp.val = 0 → OwnFault s .ret .stackUnderflow 0
  | keyIndex {i : Instr} (x : Nibble) :
      i = .skp x ∨ i = .sknp x → 15 < (s.reg x).toNat → OwnFault s i .keyIndex (zextByte (s.reg x))

/-- `t` is `s` after the instruction has taken its own fault. -/
def Faulted (s : State) (i : Instr) (t : State) : Prop :=
  ∃ code info, OwnFault s i code info ∧ t = s.latch code (encode i) info

/-- `t` is what the instruction makes of `s` where it takes no fault, by the named updates: the instructions that share an
update share a constructor, and what matters of a value is its bound. -/
inductive Completed (s : State) : Instr → State → Prop
  | cls : Completed s .cls { s with screen := blankScreen }
  | ret (k : Fin 16) : Completed s .ret (s.popTo k)
  | call (addr : Addr) (k : Fin 16) : Completed s (.call addr) (s.pushTo k (zextAddr addr))
  | jump {i : Instr} (target : Word) :
      .pc ∈ writesOf i → target.toNat ≤ 0x10FE → Completed s i (s.setPc target)
  | skip {i : Instr} (c : Bool) : .pc ∈ writesOf i → Completed s i (s.skipIf c)
  | setReg {i : Instr} (x : Nibble) (b : Byte) :
      .regs ∈ writesOf i → mayChangeVF i = (x == 0xF) → Completed s i (s.setReg x b)
  | setRegFlag {i : Instr} (x : Nibble) (b : Byte) (f : Bool) :
      .regs ∈ writesOf i → mayChangeVF i = true → Completed s i (s.setRegFlag x b f)
  | setI {i : Instr} (w : Word) : .index ∈ writesOf i → Completed s i (s.setI w)
  | rnd (x : Nibble) (kk b : Byte) : Completed s (.rnd x kk) (s.sampled.setReg x b)
  | drw (x y n : Nibble) (scr : Screen) (b : Byte) :
      Completed s (.drw x y n) ({ s with screen := scr }.setReg vf b)
  | ldDtVx (x : Nibble) : Completed s (.ldDtVx x) { s with dt := s.reg x }
  | ldStVx (x : Nibble) : Completed s (.ldStVx x) { s with st := s.reg x }
  | keyWait (x k : Nibble) (live : Bool) : Completed s (.ldVxK x) (s.rewind.setKeyRecord k live)
  | keyEnd (x k : Nibble) (b : Byte) : Completed s (.ldVxK x) ((s.setReg x b).setKeyRecord k false)
  | ldB (x : Nibble) (bs : List Byte) :
      Completed s (.ldB x) (s.setMem (s.mem.writeBytes s.i.toNat bs))
  | stRegs (x : Nibble) (bs : List Byte) (w : Word) :
      Completed s (.stRegs x) ((s.setMem (s.mem.writeBytes s.i.toNat bs)).setI w)
  | ldRegs (x : Nibble) (bs : List Byte) (w : Word) :
      bs.length = x.toNat + 1 → Completed s (.ldRegs x) ((s.loadRegs 0 bs).setI w)

/-- The result is a next state, which the instruction's fault or its completed effect has made. -/
def Answers (s : State) (i : Instr) (r : Result) : Prop := ∃ t, r = .next t ∧ (Faulted s i t ∨ Completed s i t)

theorem Answers.completed {i : Instr} {s t : State} (h : Completed s i t) : Answers s i (.next t) :=
  ⟨t, rfl, .inr h⟩

theorem Answers.faulted {i : Instr} {s : State} {code : FaultCode} {info : Word} (h : OwnFault s i code info) :
    Answers s i (raiseFrom i s code info) := ⟨_, rfl, .inl ⟨code, info, h, rfl⟩⟩

theorem Answers.accessing {i : Instr} {s t : State} (h : Completed s i t) :
    Answers s i (accessing i s (byteCount i) t) := by
  refine iteInduction (fun hr => ?_) fun _ => .completed h
  obtain ⟨hcount, hlast⟩ := (outOfRange_iff _ _).mp hr
  exact .faulted (.dataBounds hcount hlast)

theorem Answers.withKey {i : Instr} {s t : State} {x : Nibble} (hi : i = .skp x ∨ i = .sknp x) (h : Completed s i t) :
    Answers s i (withKey i s (s.reg x) t) :=
  iteInduction (fun hkey => .faulted (.keyIndex x hi hkey)) fun _ => .completed h

/-! ### The stack and the key wait, case by case -/

theorem exec_ret_pops {s : State} {k : Fin 16} (hk : k.val + 1 = s.sp.val) : exec .ret s = .next (s.popTo k) := by
  have hne : s.sp.val ≠ 0 := by omega
  have hpred : s.sp.val - 1 = k.val := by omega
  simp [exec, execRet, hne, State.popTo, hpred, Fin.ext_iff]

theorem exec_ret_underflow {s : State} (h : s.sp.val = 0) :
    exec .ret s = raiseFrom .ret s .stackUnderflow 0 := by
  simp [exec, execRet, h]

theorem exec_call_pushes {s : State} {k : Fin 16} (addr : Addr) (hk : k.val = s.sp.val) :
    exec (.call addr) s = .next (s.pushTo k (zextAddr addr)) := by
  have hne : s.sp.val ≠ 16 := by omega
  simp [exec, execCall, hne, State.pushTo, hk, Fin.ext_iff]

theorem exec_call_overflow {s : State} (addr : Addr) (h : s.sp.val = 16) :
    exec (.call addr) s = raiseFrom (.call addr) s .stackOverflow 16 := by
  simp [exec, execCall, h]

/-- The entry on top of a stack that is not empty. -/
theorem exists_top_entry {s : State} (h : s.sp.val ≠ 0) : ∃ k : Fin 16, k.val + 1 = s.sp.val :=
  ⟨⟨s.sp.val - 1, by omega⟩, by simp only; omega⟩

/-- The first free entry of a stack that is not full. -/
theorem exists_free_entry {s : State} (h : s.sp.val ≠ 16) : ∃ k : Fin 16, k.val = s.sp.val :=
  ⟨⟨s.sp.val, by omega⟩, rfl⟩

theorem exec_ldVxK (x : Nibble) (s : State) :
    exec (.ldVxK x) s =
      if released s.keys (scanKeys s.keys (s.lkKey, s.lkPressed)) then
        .next ((s.setReg x ((scanKeys s.keys (s.lkKey, s.lkPressed)).1.setWidth 8)).setKeyRecord
          (scanKeys s.keys (s.lkKey, s.lkPressed)).1 false)
      else .next (s.rewind.setKeyRecord (scanKeys s.keys (s.lkKey, s.lkPressed)).1
        (scanKeys s.keys (s.lkKey, s.lkPressed)).2) := rfl

/-! ### Every instruction answers -/

theorem exec_answers (i : Instr) (s : State) : Answers s i (exec i s) := by
  cases i with
  | cls => exact .completed .cls
  | ret =>
    by_cases h : s.sp.val = 0
    · rw [exec_ret_underflow h]
      exact .faulted (.stackUnderflow h)
    · obtain ⟨k, hk⟩ := exists_top_entry h
      rw [exec_ret_pops hk]
      exact .completed (.ret k)
  | call addr =>
    by_cases h : s.sp.val = 16
    · rw [exec_call_overflow addr h]
      exact .faulted (.stackOverflow addr h)
    · obtain ⟨k, hk⟩ := exists_free_entry h
      rw [exec_call_pushes addr hk]
      exact .completed (.call addr k)
  | jp addr =>
    have hlt := addr.isLt
    exact .completed (.jump _ (.head _) (by rw [zextAddr_toNat]; omega))
  | jpV0 addr =>
    have hlt := addr.isLt
    have hlt0 := (s.reg 0).isLt
    exact .completed (.jump _ (.head _) (by rw [zextAddr_add_zextByte_toNat]; omega))
  | seImm | sneImm | seReg | sneReg => exact .completed (.skip _ (.head _))
  | skp x => exact .withKey (.inl rfl) (.skip _ (.head _))
  | sknp x => exact .withKey (.inr rfl) (.skip _ (.head _))
  | ldImm | addImm | ldReg | ldVxDt => exact .completed (.setReg _ _ (.head _) rfl)
  | orReg | andReg | xorReg | addReg | sub | shr | subn | shl => exact .completed (.setRegFlag _ _ _ (.head _) rfl)
  | ldI | addI | ldF => exact .completed (.setI _ (.head _))
  | rnd x kk => exact .completed (.rnd x kk _)
  | drw x y n => exact .accessing (.drw x y n _ _)
  | ldDtVx x => exact .completed (.ldDtVx x)
  | ldStVx x => exact .completed (.ldStVx x)
  | ldVxK x =>
    rw [exec_ldVxK]
    exact iteInduction (fun _ => .completed (.keyEnd x _ _)) fun _ => .completed (.keyWait x _ _)
  | ldB x => exact .accessing (.ldB x _)
  | stRegs x => exact .accessing (.stRegs x _ _)
  | ldRegs x => exact .accessing (.ldRegs x _ _ (Memory.readBytes_length ..))

/-- The inversion of `exec`: from here on its arms are not looked into again. -/
theorem exec_next {i : Instr} {s t : State} (h : exec i s = .next t) : Faulted s i t ∨ Completed s i t := by
  obtain ⟨u, hu, hcases⟩ := exec_answers i s
  cases hu.symm.trans h
  exact hcases

/-! ### Frames of the two outcomes -/

theorem Faulted.frame {i : Instr} {s t : State} (h : Faulted s i t) : KeepsAllBut s t [.latch] := by
  obtain ⟨code, info, -, rfl⟩ := h
  exact .latch s code _ info

theorem OwnFault.latch_mem_writesOf {i : Instr} {s : State} {code : FaultCode} {info : Word}
    (h : OwnFault s i code info) : Part.latch ∈ writesOf i := by
  cases h with
  | dataBounds hcount _ => cases i <;> simp [byteCount, writesOf] at hcount ⊢
  | stackOverflow | stackUnderflow => simp [writesOf]
  | keyIndex x hi _ => rcases hi with rfl | rfl <;> simp [writesOf]

theorem Completed.frame {i : Instr} {s t : State} (h : Completed s i t) :
    KeepsAllBut s t ((writesOf i).filter (· ≠ .latch)) := by
  have single {p : Part} (hp : p ∈ writesOf i) (hne : p ≠ .latch) : [p] ⊆ (writesOf i).filter (· ≠ .latch) := by
    simp [hp, hne]
  cases h with
  | cls => exact .withScreen s _
  | ret k => exact .popTo s k
  | call addr k => exact .pushTo s k _
  | jump target hp _ => exact (KeepsAllBut.setPc s target).mono (single hp (by decide))
  | skip c hp => exact (KeepsAllBut.skipIf s c).mono (single hp (by decide))
  | setReg x b hp _ => exact (KeepsAllBut.setReg s x b).mono (single hp (by decide))
  | setRegFlag x b f hp _ => exact (KeepsAllBut.setRegFlag s x b f).mono (single hp (by decide))
  | setI w hp => exact (KeepsAllBut.setI s w).mono (single hp (by decide))
  | rnd x kk b => exact ((KeepsAllBut.sampled s).append (.setReg _ x b)).mono (by simp [writesOf])
  | drw x y n scr b => exact ((KeepsAllBut.withScreen s scr).append (.setReg _ vf b)).mono (by simp [writesOf])
  | ldDtVx x => exact .withDelay s _
  | ldStVx x => exact .withSound s _
  | keyWait x k live =>
    exact ((KeepsAllBut.setPc s _).append (.setKeyRecord _ k live)).mono (by simp [writesOf])
  | keyEnd x k b => exact ((KeepsAllBut.setReg s x b).append (.setKeyRecord _ k false)).mono (by simp [writesOf])
  | ldB x bs => exact .setMem s _
  | stRegs x bs w => exact ((KeepsAllBut.setMem s _).append (.setI _ w)).mono (by simp [writesOf])
  | ldRegs x bs w _ => exact ((KeepsAllBut.loadRegs s 0 bs).append (.setI _ w)).mono (by simp [writesOf])

theorem Completed.latch_eq {i : Instr} {s t : State} (h : Completed s i t) :
    t.fault = s.fault ∧ t.faultIw = s.faultIw ∧ t.faultInfo = s.faultInfo :=
  h.frame .latch (by simp)

/-! ### What every instruction keeps -/

/-- Settles O51: a fault writes the latch, a completed effect the rest of the instruction's row. -/
theorem instructionsWriteOnlyTheirElements : Obligations.InstructionsWriteOnlyTheirElements := by
  intro i s t h
  rcases exec_next h with hfault | hdone
  · obtain ⟨code, info, hown, -⟩ := id hfault
    exact hfault.frame.mono (by simp [hown.latch_mem_writesOf])
  · exact hdone.frame.mono List.filter_sublist.subset

/-- Settles O11: a completed effect keeps the latch, so the fault is the instruction's own. -/
theorem executeTimeFaultsAreTheTableOfR170 : Obligations.ExecuteTimeFaultsAreTheTableOfR170 := by
  intro i s t hs h hfault
  rcases exec_next h with hf | hdone
  · have hframe := hf.frame
    obtain ⟨code, info, hown, rfl⟩ := hf
    refine ⟨decode_encode i, hframe, ?_⟩
    cases hown with
    | dataBounds hcount hlast => exact .inl ⟨rfl, rfl, hcount, by omega⟩
    | stackOverflow addr hsp => exact .inr (.inl ⟨rfl, rfl, hsp, addr, rfl⟩)
    | stackUnderflow hsp => exact .inr (.inr (.inl ⟨rfl, rfl, hsp, rfl⟩))
    | keyIndex x hi hkey => exact .inr (.inr (.inr ⟨rfl, x, hi, hkey, zextByte_toNat _⟩))
  · exact absurd (hdone.latch_eq.1.trans hs) hfault

/-- Settles O34: of the effects that write a register, those of the other instructions write another one. -/
theorem onlyFlagWritersChangeVF : Obligations.OnlyFlagWritersChangeVF := by
  intro i s t h hvf
  rcases exec_next h with ⟨code, info, -, rfl⟩ | hdone
  · rfl
  cases hdone with
  | setReg x b _ hx =>
    have hne : (0xF : Nibble) ≠ x := by rintro rfl; simp [hx] at hvf
    exact s.reg_setReg_other b hne
  | setRegFlag x b f _ hx => simp [hx] at hvf
  | rnd x kk b =>
    have hne : (0xF : Nibble) ≠ x := by rintro rfl; simp [mayChangeVF] at hvf
    exact s.sampled.reg_setReg_other b hne
  | drw => simp [mayChangeVF] at hvf
  | keyEnd x k b =>
    have hne : (0xF : Nibble) ≠ x := by rintro rfl; simp [mayChangeVF] at hvf
    exact s.reg_setReg_other b hne
  | ldRegs x bs w hlen =>
    have hne : x.toNat ≠ 15 := fun hx => by
      have : x = 0xF := BitVec.eq_of_toNat_eq hx
      simp [mayChangeVF, this] at hvf
    have hlt := x.isLt
    rw [State.reg_setI, State.reg_loadRegs s 0 bs (by omega), if_neg]
    rw [hlen]
    simp
    omega
  | skip c _ => exact s.reg_skipIf c _
  | _ => rfl

end Sys2Proof.Machine

namespace Sys2Proof.Machine

/-! ## What a step answers, case by case (40_step_cycle R90 to R96) -/

theorem step_latched {s : State} (h : s.fault ≠ .success) : step s = .next (s.report s.faultIw) :=
  if_pos h

theorem State.canFetch_eq_false_iff (s : State) : s.canFetch = false ↔ 0x0FFE < s.pc.toNat := by
  rw [← Bool.not_eq_true, State.canFetch_iff, Nat.not_le]

theorem step_unfetchable {s : State} (hs : s.fault = .success) (hpc : 0x0FFE < s.pc.toNat) :
    step s = .next ((s.latch .fetchBounds 0 s.pc).report 0) := by
  have hfetch := s.canFetch_eq_false_iff.mpr hpc
  exact (if_neg (not_not.mpr hs)).trans (if_neg (by rw [hfetch]; decide))

theorem step_fetched {s : State} (hs : s.fault = .success) (hpc : s.pc.toNat ≤ 0x0FFE) :
    step s = reported s.fetchWord (runWord s.fetchWord s.advance) :=
  (if_neg (not_not.mpr hs)).trans (if_pos ((State.canFetch_iff s).mpr hpc))

theorem step_decoded {s : State} {i : Instr} (hs : s.fault = .success) (hpc : s.pc.toNat ≤ 0x0FFE)
    (hi : decode s.fetchWord = .ok i) : step s = reported s.fetchWord (exec i s.advance) := by
  rw [step_fetched hs hpc, runWord, hi]

theorem step_undecoded {s : State} {e : DecodeError} (hs : s.fault = .success) (hpc : s.pc.toNat ≤ 0x0FFE)
    (he : decode s.fetchWord = .error e) :
    step s = .next ((s.advance.latch .invalidOpcode s.fetchWord s.fetchWord).report s.fetchWord) := by
  rw [step_fetched hs hpc, runWord, he]
  rfl

theorem fetchWord_of_bytes {s : State} {iw : Word}
    (h : iw.toNat = 256 * (s.byteAt s.pc.toNat).toNat + (s.byteAt (s.pc.toNat + 1)).toNat) : s.fetchWord = iw :=
  BitVec.eq_of_toNat_eq ((State.fetchWord_toNat s).trans h.symm)

theorem decode_error_iff_illegal (iw : Word) : (∃ e, decode iw = .error e) ↔ legalWord iw = false := by
  rw [← Bool.not_eq_true, legalWord_iff]
  cases decode iw <;> simp

theorem KeepsAllBut.advance (s : State) : KeepsAllBut s s.advance [.pc] := .setPc s _

theorem State.report_out_latch {s : State} (h : s.fault ≠ .success) (iw : Word) :
    (s.report iw).out = ⟨s.fault, s.faultIw, s.faultInfo⟩ := if_neg h

theorem State.report_out_success {s : State} (h : s.fault = .success) (iw : Word) :
    (s.report iw).out = ⟨.success, iw, 0⟩ := if_pos h

/-- Settles O4: the word at `pc` is `fetchWord`. -/
theorem stepRunsTheDecodedInstruction : Obligations.StepRunsTheDecodedInstruction := by
  intro s iw ins hs hpc hiw hdecode
  obtain rfl := fetchWord_of_bytes hiw
  exact step_decoded hs hpc hdecode

/-- Settles O5: no row covers the word, so it does not decode. -/
theorem illegalWordRaisesInvalidOpcode : Obligations.IllegalWordRaisesInvalidOpcode := by
  intro s iw hs hpc hiw hillegal
  obtain rfl := fetchWord_of_bytes hiw
  obtain ⟨e, he⟩ := (decode_error_iff_illegal _).mpr hillegal
  refine ⟨_, step_undecoded hs hpc he, rfl, rfl, rfl, rfl, rfl, ?_⟩
  exact ((KeepsAllBut.advance s).append (.latch _ _ _ _)).append (.report _ _)

/-- Settles O6: nothing is fetched, and the latch is set before any advance. -/
theorem fetchAboveMemoryRaisesFetchBounds : Obligations.FetchAboveMemoryRaisesFetchBounds := by
  intro s hs hpc
  exact ⟨_, step_unfetchable hs hpc, rfl, rfl, rfl, rfl, (KeepsAllBut.latch s _ _ _).append (.report _ _)⟩

theorem run_succ_of_next {M : Host.Core} {s t : M.State} (n : Nat) (h : M.step s = .next t) :
    M.run (n + 1) s = M.run n t := by
  rw [Host.Core.run, h]

/-- The report depends on the latch alone, so reporting again changes nothing. -/
theorem run_latched (n : Nat) {s : State} (h : s.fault ≠ .success) :
    Host.Core.run core (n + 1) s = .next (s.report s.faultIw) := by
  have hrun (k : Nat) := run_succ_of_next (M := core) k (step_latched h)
  induction n generalizing s with
  | zero => exact hrun 0
  | succ n ih => exact (hrun (n + 1)).trans (ih (s := s.report s.faultIw) h fun k => run_succ_of_next k (step_latched h))

/-- Settles O7: by induction on the number of steps, all of which renew the same report. -/
theorem latchedFaultStopsEveryLaterStep : Obligations.LatchedFaultStopsEveryLaterStep := by
  intro n s hs
  exact ⟨_, run_latched n hs, .report s _, s.report_out_latch hs _⟩

/-- Settles O9: the four cases of a step, the last by `exec_answers`. -/
theorem everyStepAnswersNext : Obligations.EveryStepAnswersNext := by
  intro s
  by_cases hs : s.fault = .success
  · by_cases hpc : s.pc.toNat ≤ 0x0FFE
    · cases hd : decode s.fetchWord with
      | error e => exact ⟨_, step_undecoded hs hpc hd⟩
      | ok i =>
        obtain ⟨t, ht, -⟩ := exec_answers i s.advance
        exact ⟨t.report s.fetchWord, by rw [step_decoded hs hpc hd, ht, reported_next]⟩
    · exact ⟨_, step_unfetchable hs (by omega)⟩
  · exact ⟨_, step_latched hs⟩

/-- Settles O8: a successful step is the decoded instruction's, the report of any other is the latch. -/
theorem stepReportsWordOrLatch : Obligations.StepReportsWordOrLatch := by
  intro s t hs h
  constructor
  · intro ht
    rcases step_next h with ⟨hf, -⟩ | ⟨-, -, rfl⟩ | ⟨-, -, -, rfl⟩ | ⟨-, -, i, u, -, -, rfl⟩
    · exact absurd hs hf
    · cases ht
    · cases ht
    · rw [State.report_out_success (s := u) ht]
      exact ⟨rfl, rfl, State.fetchWord_toNat s⟩
  · intro ht
    rcases step_next h with ⟨-, rfl⟩ | ⟨-, -, rfl⟩ | ⟨-, -, -, rfl⟩ | ⟨-, -, i, u, -, -, rfl⟩
    all_goals exact State.report_out_latch ht _

/-- Settles O10: an instruction that faults has only set the latch, after the advance of `pc`. -/
theorem faultsArePrecise : Obligations.FaultsArePrecise := by
  intro s t hs h ht
  rcases step_next h with ⟨hf, -⟩ | ⟨-, -, rfl⟩ | ⟨-, -, -, rfl⟩ | ⟨-, -, i, u, -, hexec, rfl⟩
  · exact absurd hs hf
  · exact ⟨((KeepsAllBut.latch s _ _ _).append (.report _ _)).mono (by simp), rfl⟩
  · exact ⟨((KeepsAllBut.advance s).append (.latch _ _ _ _)).append (.report _ _), rfl⟩
  · obtain ⟨-, hframe, htable⟩ := executeTimeFaultsAreTheTableOfR170 i s.advance u hs hexec ht
    refine ⟨((KeepsAllBut.advance s).append hframe).append (.report _ _), ?_⟩
    have hpc : u.pc = s.pc + 2 := hframe .pc (by simp)
    rw [State.report_pc, State.report_fault, hpc, if_neg]
    rcases htable with ⟨hcode, -⟩ | ⟨hcode, -⟩ | ⟨hcode, -⟩ | ⟨hcode, -⟩ <;> rw [hcode] <;> decide

/-- Settles O12: the jump undoes the advance of `pc`. -/
theorem selfJumpIsAFixedPoint : Obligations.SelfJumpIsAFixedPoint := by
  intro s addr hs hpc hdecode haddr
  have hself : zextAddr addr = s.pc := BitVec.eq_of_toNat_eq ((zextAddr_toNat addr).trans haddr)
  refine ⟨(s.advance.setPc s.pc).report s.fetchWord, ?_, .report s _, State.report_out_success hs _⟩
  rw [step_decoded hs hpc hdecode, exec_jp, hself, reported_next]

/-! ### A word placed for an opcode-table query (log 9) -/

theorem decode_of_decodeTableWord {w : Nat} {i : Instr} (h : decodeTableWord 16 w = some i) :
    decode (tableWord 16 w) = .ok i := by
  rw [decodeTableWord, decodeBytes, wordOfBytes_bytes] at h
  cases hd : decode (tableWord 16 w) with
  | ok j =>
    rw [hd] at h
    cases h
    rfl
  | error e =>
    rw [hd] at h
    cases h

theorem KeepsAllBut.writeWord (s : State) (iw : Word) : KeepsAllBut s (s.writeWord iw) [.mem] := .setMem s _

theorem KeepsBytesOutside.writeBytes (s : State) (a : Nat) (bs : List Byte) (h : a + bs.length ≤ 4096) :
    KeepsBytesOutside s (s.setMem (s.mem.writeBytes a bs)) a bs.length := by
  intro b hb
  exact (Memory.read_writeBytes _ _ _ _ h).trans (if_neg hb)

/-- Settles O13: the placed word is fetched, and where the machine runs already placing it is writing its two bytes. -/
theorem placedWordIsFetchedNext : Obligations.PlacedWordIsFetchedNext := by
  intro s w i h
  obtain ⟨hfault, hpc, hword⟩ := State.placeWord_fetched s (tableWord 16 w)
  refine ⟨hfault, hpc, (congrArg decode hword).trans (decode_of_decodeTableWord h), fun hs hspc => ?_⟩
  rw [State.withFetchWord, State.placeWord_running s _ hs hspc]
  exact ⟨.writeWord s _, .writeBytes s _ [_, _] (by simp; omega)⟩

end Sys2Proof.Machine

namespace Sys2Proof.Machine

/-! ## The invariants (10_state R24, R34, 60_exceptions R170, R180) -/

/-! ### Memory -/

theorem Completed.mem_wf {i : Instr} {s t : State} (h : Completed s i t) (hs : s.mem.wf = true) : t.mem.wf = true := by
  cases h with
  | ldB x bs => exact Memory.wf_writeBytes _ bs hs
  | stRegs x bs w => exact Memory.wf_writeBytes _ bs hs
  | skip c _ => rwa [State.skipIf_mem]
  | ldRegs x bs w _ => rwa [State.setI_mem, State.loadRegs_mem]
  | _ => exact hs

theorem exec_mem_wf {i : Instr} {s t : State} (h : exec i s = .next t) (hs : s.mem.wf = true) : t.mem.wf = true := by
  rcases exec_next h with ⟨code, info, -, rfl⟩ | hdone
  · exact hs
  · exact hdone.mem_wf hs

/-- Settles O53: only `exec` writes memory, and its two stores keep the form. -/
theorem stepKeepsMemoryCanonical : Obligations.StepKeepsMemoryCanonical := by
  intro s t hs h
  rcases step_next h with ⟨-, rfl⟩ | ⟨-, -, rfl⟩ | ⟨-, -, -, rfl⟩ | ⟨-, -, i, u, -, hexec, rfl⟩
  · exact hs
  · exact hs
  · exact hs
  · exact exec_mem_wf (t := u) hexec hs

/-! ### `pc` and the stack -/

/-- The advanced `pc` of a fetched instruction lies from 2 to 0x1000, so neither the rewind nor a skip wraps, and a call
pushes a value within the bound of the stack. -/
theorem Completed.pcBounded {i : Instr} {s t : State} (h : Completed s i t) (hlow : 2 ≤ s.pc.toNat)
    (hpc : s.pc.toNat ≤ 0x1000) (hstack : ∀ k : Fin 16, s.stack[k].toNat ≤ 0x1000) : PcBounded t := by
  have hkept : PcBounded s := ⟨by omega, hstack⟩
  cases h with
  | ret k => exact ⟨Nat.le_trans (hstack k) (by decide), hstack⟩
  | call addr k =>
    have hlt := addr.isLt
    refine ⟨?_, fun j => ?_⟩
    · show (zextAddr addr).toNat ≤ 0x10FE
      rw [zextAddr_toNat]
      omega
    · rw [State.stack_pushTo]
      exact iteInduction (motive := fun w : Word => w.toNat ≤ 0x1000) (fun _ => hpc) fun _ => hstack j
  | jump target _ hbound => exact ⟨hbound, hstack⟩
  | skip c _ =>
    cases c with
    | false => exact hkept
    | true => exact ⟨by rw [State.skipIf, if_pos rfl, State.advance_pc_toNat hpc]; omega, hstack⟩
  | keyWait x k live =>
    refine ⟨?_, hstack⟩
    show (s.pc - 2).toNat ≤ 0x10FE
    bv_omega
  | ldRegs x bs w _ =>
    refine ⟨?_, fun k => ?_⟩
    · rw [State.setI_pc, State.loadRegs_pc]
      exact hkept.1
    · simpa using hstack k
  | _ => exact hkept

/-- Settles O54: nothing that does not fetch moves `pc`, and what fetches starts at most at 0x0FFE. -/
theorem stepKeepsPcAndStackBounded : Obligations.StepKeepsPcAndStackBounded := by
  intro s t hs h
  obtain ⟨-, hstack⟩ := id hs
  rcases step_next h with ⟨-, rfl⟩ | ⟨-, -, rfl⟩ | ⟨-, hfetch, -, rfl⟩ | ⟨-, hfetch, i, u, -, hexec, rfl⟩
  · exact hs
  · exact hs
  all_goals
    have hpc := (State.canFetch_iff s).mp hfetch
    have hadv : s.advance.pc.toNat = s.pc.toNat + 2 := State.advance_pc_toNat (by omega)
  · exact ⟨by rw [State.report_pc, State.latch_pc, hadv]; omega, hstack⟩
  · rcases exec_next hexec with ⟨code, info, -, rfl⟩ | hdone
    · exact ⟨by rw [State.report_pc, State.latch_pc, hadv]; omega, hstack⟩
    · exact hdone.pcBounded (by omega) (by omega) hstack

/-! ### The latch and the report -/

theorem State.reportSound_report (s : State) (iw : Word) : ReportSound (s.report iw) := by
  intro hf
  rw [State.report_out_latch (s := s) hf]
  exact ⟨rfl, rfl, rfl⟩

theorem latchSound_iff_of_success {s : State} (h : s.fault = .success) :
    LatchSound s ↔ s.faultIw = 0 ∧ s.faultInfo = 0 := by
  simp only [LatchSound, h]

theorem OwnFault.latchSound {i : Instr} {s : State} {code : FaultCode} {info : Word} (h : OwnFault s i code info) :
    LatchSound (s.latch code (encode i) info) := by
  cases h with
  | dataBounds hcount hlast => exact ⟨rfl, i, decode_encode i, hcount, by rw [State.latch_i]; omega⟩
  | stackOverflow addr hsp => exact ⟨rfl, hsp, addr, decode_encode _⟩
  | stackUnderflow hsp => exact ⟨rfl, hsp, rfl⟩
  | keyIndex x hi hkey =>
    refine ⟨x, ?_, hkey, zextByte_toNat _⟩
    rcases hi with rfl | rfl
    · exact .inl (decode_encode _)
    · exact .inr (decode_encode _)

theorem exec_latchSound {i : Instr} {s t : State} (hf : s.fault = .success) (hs : s.faultIw = 0 ∧ s.faultInfo = 0)
    (h : exec i s = .next t) : LatchSound t := by
  rcases exec_next h with ⟨code, info, hown, rfl⟩ | hdone
  · exact hown.latchSound
  · obtain ⟨hfault, hiw, hinfo⟩ := hdone.latch_eq
    rw [latchSound_iff_of_success (hfault.trans hf), hiw, hinfo]
    exact hs

/-- Settles O55: every fault is latched with its cause, and every step ends by reporting the latch. -/
theorem stepKeepsLatchAndReportSound : Obligations.StepKeepsLatchAndReportSound := by
  intro s t hs _ h
  rcases step_next h with ⟨-, rfl⟩ | ⟨-, hfetch, rfl⟩ | ⟨-, -, herror, rfl⟩ | ⟨hf, -, i, u, -, hexec, rfl⟩
  · exact ⟨hs, State.reportSound_report s _⟩
  · exact ⟨⟨rfl, rfl, s.canFetch_eq_false_iff.mp hfetch⟩, State.reportSound_report _ _⟩
  · exact ⟨⟨(decode_error_iff_illegal _).mp herror, rfl⟩, State.reportSound_report _ _⟩
  · have hclear := (latchSound_iff_of_success hf).mp hs
    exact ⟨exec_latchSound (s := s.advance) (t := u) hf hclear hexec, State.reportSound_report u _⟩

/-! ## Reset, load and the host's moves (70_reset_and_hazards R190 to R193, 60_exceptions R183 to R185) -/

theorem imageFits_iff (prog : List Byte) : imageFits prog = true ↔ prog.length ≤ 3584 := by
  simp [imageFits]

/-- The state that `ResetLoad` makes of an image that fits. -/
def loadedState (prog : List Byte) : State :=
  State.reset.setMem (State.reset.mem.writeBytes Config.progBase prog)

theorem resetLoad_fits {prog : List Byte} (h : prog.length ≤ 3584) : resetLoad prog = .next (loadedState prog) :=
  if_pos ((imageFits_iff prog).mpr h)

theorem resetLoad_too_long {prog : List Byte} (h : 3584 < prog.length) : resetLoad prog = .fault .programTooLarge :=
  if_neg (by rw [imageFits_iff]; omega)

theorem resetLoad_next {prog : List Byte} {t : State} (h : resetLoad prog = .next t) : t = loadedState prog := by
  by_cases hlen : prog.length ≤ 3584
  · cases (resetLoad_fits hlen).symm.trans h
    rfl
  · cases (resetLoad_too_long (by omega)).symm.trans h

theorem byteAt_loadedState {prog : List Byte} (h : prog.length ≤ 3584) (a : Nat) :
    (loadedState prog).byteAt a =
      if 512 ≤ a ∧ a < 512 + prog.length then prog.getD (a - 512) 0 else resetByte a :=
  Memory.read_writeBytes [] 512 a prog (by omega)

theorem resetByte_above_glyphs {a : Nat} (h : 80 ≤ a) : resetByte a = 0 :=
  List.getD_eq_default _ _ h

theorem State.reg_reset (x : Nibble) : State.reset.reg x = 0 := by
  simp [State.reg, State.reset]

theorem State.stack_reset (k : Fin 16) : State.reset.stack[k] = 0 := by
  simp [State.reset]

theorem State.keys_reset (k : Fin 16) : State.reset.keys[k] = false := by
  simp [State.reset]

/-- Settles O1: memory is the image over the reset bytes, all else is `State.reset`. -/
theorem resetLoadLeavesTableOfR36 : Obligations.ResetLoadLeavesTableOfR36 := by
  intro prog hlen
  have hbyte := byteAt_loadedState hlen
  refine ⟨_, resetLoad_fits hlen, State.reg_reset, rfl, rfl, rfl, State.stack_reset, rfl, rfl, State.keys_reset, rfl, rfl,
    State.pixel_of_blank rfl, rfl, rfl, rfl, fun a ha => ?_, fun a ha ha' => ?_, fun k hk => ?_, fun a ha _ => ?_⟩
  · rw [hbyte, if_neg (by omega)]
    rfl
  · rw [hbyte, if_neg (by omega), resetByte_above_glyphs ha]
  · rw [hbyte, if_pos (by omega), Nat.add_sub_cancel_left]
  · rw [hbyte, if_neg (by omega), resetByte_above_glyphs (by omega)]

/-- Settles O2: `imageFits` compares the length with 3584, and `hostStep` refuses every other move on `none`. -/
theorem loadIsRefusedExactlyAbove3584Bytes : Obligations.LoadIsRefusedExactlyAbove3584Bytes := by
  intro prog m
  refine ⟨fun h => ⟨resetLoad_too_long h, ?_⟩, fun h => ⟨⟨_, resetLoad_fits h⟩, ?_⟩, fun k => ⟨rfl, rfl, rfl⟩⟩
  · exact if_neg (by rw [imageFits_iff]; omega)
  · exact if_pos ((imageFits_iff prog).mpr h)

theorem countDown_toNat (b : Byte) : (countDown b).toNat = b.toNat - 1 := by
  unfold countDown
  split
  case isTrue h => simp [h]
  case isFalse h => bv_omega

theorem State.tone_iff (s : State) : s.tone = true ↔ s.st ≠ 0 := by
  rw [State.tone, decide_eq_true_iff, Nat.pos_iff_ne_zero, ne_eq, ne_eq, ← BitVec.toNat_inj]
  rfl

/-- Settles O3: each timer counts down by itself, and `tone` compares `ST` with 0. -/
theorem hostMovesTouchOnlyTimersOrKeys : Obligations.HostMovesTouchOnlyTimersOrKeys := by
  intro s
  exact ⟨⟨countDown_toNat s.dt, countDown_toNat s.st, .tick s⟩, fun k => ⟨fun j => rfl, .setKeys s k⟩, s.tone_iff⟩

/-! ### The invariant of every reachable state -/

/-- Settles O56: the clauses of the invariant, evaluated at reset. -/
theorem resetMeetsTheInvariant : Obligations.ResetMeetsTheInvariant :=
  ⟨⟨Memory.wf_reset, ⟨by decide, fun k => by rw [State.stack_reset]; decide⟩, ⟨rfl, rfl⟩, fun h => absurd rfl h⟩, rfl⟩

theorem Inv.loadedState (prog : List Byte) : Inv (loadedState prog) := by
  obtain ⟨⟨-, hbounded, hlatch, hreport⟩, -⟩ := resetMeetsTheInvariant
  exact ⟨Memory.wf_writeBytes _ prog Memory.wf_reset, hbounded, hlatch, hreport⟩

theorem Inv.step {s t : State} (hs : Inv s) (h : step s = .next t) : Inv t := by
  obtain ⟨hmem, hbounded, hlatch, hreport⟩ := hs
  exact ⟨stepKeepsMemoryCanonical s t hmem h, stepKeepsPcAndStackBounded s t hbounded h,
    stepKeepsLatchAndReportSound s t hlatch hreport h⟩

/-- Settles O57: by induction on how the state is reached; keys and timers are in no clause of the invariant. -/
theorem reachableStatesMeetTheInvariant : Obligations.ReachableStatesMeetTheInvariant := by
  intro s hs
  induction hs with
  | load prog t h =>
    rw [resetLoad_next h]
    exact .loadedState prog
  | step s t _ h ih => exact ih.step h
  | setKeys s k _ ih => exact ih
  | tick s _ ih => exact ih

end Sys2Proof.Machine

namespace Sys2Proof.Machine

/-! ## Calls and returns (41_control_flow R100, R102, R108) -/

theorem encode_toNat {i : Instr} {w : Nat} (h : EncodedAs i w) : (encode i).toNat = w := (h _).mp (decode_encode i)

/-- Taking a fault latches it and changes nothing else (R179). -/
theorem raiseFrom_takesFault {i : Instr} (s : State) (code : FaultCode) {w n : Nat} {info : Word} (hw : EncodedAs i w)
    (hinfo : info.toNat = n) : ∃ t, raiseFrom i s code info = .next t ∧ TakesFault s t code w n :=
  ⟨_, rfl, rfl, encode_toNat hw, hinfo, .latch s _ _ _⟩

theorem encodedAs_ret : EncodedAs .ret 0x00EE := encodedAs_of_encode rfl

theorem encodedAs_call (addr : Addr) : EncodedAs (.call addr) (0x2000 + addr.toNat) := encodedAs_of_formatAddr 0x2 rfl

/-- Settles O20: the entry on top is the one below `sp`. -/
theorem retPopsTheStack : Obligations.RetPopsTheStack := by
  refine ⟨encodedAs_ret, fun s hsp => ?_⟩
  obtain ⟨k, hk⟩ := exists_top_entry hsp
  refine ⟨_, exec_ret_pops hk, hk, fun j hj => ?_, .popTo s k⟩
  obtain rfl : j = k := Fin.ext (by omega)
  rfl

/-- Settles O21: the first free entry is the one at `sp`. -/
theorem callPushesTheAdvancedPc : Obligations.CallPushesTheAdvancedPc := by
  intro addr
  refine ⟨encodedAs_call addr, fun s hsp => ?_⟩
  obtain ⟨k, hk⟩ := exists_free_entry hsp
  refine ⟨_, exec_call_pushes addr hk, congrArg (· + 1) hk, zextAddr_toNat addr, fun j => ?_, .pushTo s k _⟩
  rw [State.stack_pushTo, hk]

/-- Settles O22: each takes its fault at its end of the stack. -/
theorem stackFaultsLeaveTheStack : Obligations.StackFaultsLeaveTheStack := by
  refine ⟨fun addr s hsp => ?call, fun s hsp => ?ret⟩
  case call =>
    rw [exec_call_overflow addr hsp]
    exact raiseFrom_takesFault s _ (encodedAs_call addr) rfl
  case ret =>
    rw [exec_ret_underflow hsp]
    exact raiseFrom_takesFault s _ encodedAs_ret rfl

/-- Settles O27: the return pops the very entry that the call pushed. -/
theorem retAfterCallReturns : Obligations.RetAfterCallReturns := by
  intro s addr w hsp
  obtain ⟨k, hk⟩ := exists_free_entry hsp
  have hpc : ((s.pushTo k (zextAddr addr)).setPc w).stack[k] = s.pc := (s.stack_pushTo k k _).trans (if_pos rfl)
  have hframe := ((KeepsAllBut.pushTo s k (zextAddr addr)).append (.setPc _ w)).append (.popTo _ k)
  refine ⟨_, _, exec_call_pushes addr hk, exec_ret_pops (k := k) rfl, hpc, Fin.ext hk, fun p hp => ?_⟩
  cases p with
  | stack => exact absurd (List.mem_singleton.mpr rfl) hp
  | pc => exact hpc
  | sp => exact Fin.ext hk
  | _ => exact hframe _ (by simp)

/-! ## The random byte (42_load_and_alu R131) -/

theorem exec_rnd (x : Nibble) (kk : Byte) (s : State) :
    exec (.rnd x kk) s = .next (s.sampled.setReg x (Config.rnd s.rndDraws &&& kk)) := rfl

/-- Settles O33: the sample is numbered by the counter before the step. -/
theorem rndMasksOneSample : Obligations.RndMasksOneSample := by
  intro x kk
  refine ⟨encodedAs_of_formatXKK 0xC rfl, fun s => ?_⟩
  refine ⟨_, exec_rnd x kk s, fun k => ?_, rfl, .setReg s.sampled x _, ?_⟩
  · rw [State.reg_setReg_same, BitVec.getLsbD_and]
  · exact ((KeepsAllBut.sampled s).append (.setReg _ x _)).mono (by simp)

/-! ## Memory through `I` (43_index_and_memory R143 to R145, 20_memory R63) -/

theorem exec_ldB (x : Nibble) (s : State) :
    exec (.ldB x) s = accessing (.ldB x) s 3 (s.setMem (s.mem.writeBytes s.i.toNat (decimalDigits (s.reg x)))) := rfl
theorem exec_stRegs (x : Nibble) (s : State) :
    exec (.stRegs x) s = accessing (.stRegs x) s (x.toNat + 1)
      ((s.setMem (s.mem.writeBytes s.i.toNat (s.regsUpTo x))).setI (s.i + BitVec.ofNat 16 (x.toNat + 1))) := rfl
theorem exec_ldRegs (x : Nibble) (s : State) :
    exec (.ldRegs x) s = accessing (.ldRegs x) s (x.toNat + 1)
      ((s.loadRegs 0 (s.mem.readBytes s.i.toNat (x.toNat + 1))).setI (s.i + BitVec.ofNat 16 (x.toNat + 1))) := rfl

theorem encodedAs_ldB (x : Nibble) : EncodedAs (.ldB x) (0xF033 + 256 * x.toNat) := encodedAs_of_familyF 0x33 rfl
theorem encodedAs_stRegs (x : Nibble) : EncodedAs (.stRegs x) (0xF055 + 256 * x.toNat) := encodedAs_of_familyF 0x55 rfl
theorem encodedAs_ldRegs (x : Nibble) : EncodedAs (.ldRegs x) (0xF065 + 256 * x.toNat) := encodedAs_of_familyF 0x65 rfl

/-- `I` moved past the registers does not wrap where they lie in memory. -/
theorem index_past_toNat {w : Word} {x : Nibble} (h : w.toNat + x.toNat ≤ 4095) :
    (w + BitVec.ofNat 16 (x.toNat + 1)).toNat = w.toNat + x.toNat + 1 := by
  rw [BitVec.toNat_add, BitVec.toNat_ofNat]
  omega

/-- What a block of bytes stored through `I` reads as, byte by byte. -/
theorem byteAt_stored (s : State) {a k : Nat} {bs : List Byte} (h : a + bs.length ≤ 4096) (hk : k < bs.length) :
    (s.setMem (s.mem.writeBytes a bs)).byteAt (a + k) = bs.getD k 0 := by
  rw [State.byteAt_setMem, Memory.read_writeBytes _ _ _ _ h, if_pos (by omega), Nat.add_sub_cancel_left]

theorem byteAt_storedDigit (s : State) (x : Nibble) {k d : Nat} (hi : s.i.toNat + 3 ≤ 4096) (hk : k < 3)
    (hdigit : (decimalDigits (s.reg x)).getD k 0 = BitVec.ofNat 8 d) (hd : d < 256) :
    ((s.setMem (s.mem.writeBytes s.i.toNat (decimalDigits (s.reg x)))).byteAt (s.i.toNat + k)).toNat = d := by
  rw [byteAt_stored s hi hk, hdigit, BitVec.toNat_ofNat, Nat.mod_eq_of_lt hd]

/-- Settles O37: the three bytes are `decimalDigits`, each below 256. -/
theorem bcdStoresThreeDigits : Obligations.BcdStoresThreeDigits := by
  intro x
  refine ⟨encodedAs_ldB x, fun s hi => ?_⟩
  have hlt := (s.reg x).isLt
  refine ⟨_, (exec_ldB x s).trans (accessing_fits (.inr (by omega))), ?_, ?_, ?_,
    .writeBytes s _ (decimalDigits _) (Nat.succ_le_succ hi), .setMem s _⟩
  · exact byteAt_storedDigit s x (k := 0) (by omega) (by decide) rfl (by omega)
  · exact byteAt_storedDigit s x (by omega) (by decide) rfl (by omega)
  · exact byteAt_storedDigit s x (by omega) (by decide) rfl (by omega)

theorem exec_stRegs_fits {x : Nibble} {s : State} (h : s.i.toNat + x.toNat ≤ 4095) :
    exec (.stRegs x) s = .next
      ((s.setMem (s.mem.writeBytes s.i.toNat (s.regsUpTo x))).setI (s.i + BitVec.ofNat 16 (x.toNat + 1))) :=
  accessing_fits (.inr (by omega))

theorem exec_ldRegs_fits {x : Nibble} {s : State} (h : s.i.toNat + x.toNat ≤ 4095) :
    exec (.ldRegs x) s = .next
      ((s.loadRegs 0 (s.mem.readBytes s.i.toNat (x.toNat + 1))).setI (s.i + BitVec.ofNat 16 (x.toNat + 1))) :=
  accessing_fits (.inr (by omega))

theorem byteAt_storedRegs (s : State) {x k : Nibble} (h : s.i.toNat + x.toNat ≤ 4095) (hk : k.toNat ≤ x.toNat) :
    (s.setMem (s.mem.writeBytes s.i.toNat (s.regsUpTo x))).byteAt (s.i.toNat + k.toNat) = s.reg k := by
  rw [byteAt_stored s (by rw [State.regsUpTo_length]; omega) (by rw [State.regsUpTo_length]; omega),
    State.regsUpTo_getD s x _ hk, BitVec.ofNat_toNat, BitVec.setWidth_eq]

theorem reg_loadedRegs (s : State) (x k : Nibble) :
    (s.loadRegs 0 (s.mem.readBytes s.i.toNat (x.toNat + 1))).reg k =
      if k.toNat ≤ x.toNat then s.byteAt (s.i.toNat + k.toNat) else s.reg k := by
  have hlt := x.isLt
  rw [State.reg_loadRegs s 0 _ (by rw [Memory.readBytes_length]; omega), Memory.readBytes_length]
  by_cases hk : k.toNat ≤ x.toNat
  · rw [if_pos (by omega), if_pos hk, Memory.readBytes_getD _ _ _ _ (by omega)]
    rfl
  · rw [if_neg (by omega), if_neg hk]

/-- Settles O38: the bytes stored are `regsUpTo`. -/
theorem storeRegistersThroughI : Obligations.StoreRegistersThroughI := by
  intro x
  refine ⟨encodedAs_stRegs x, fun s hi => ?_⟩
  refine ⟨_, exec_stRegs_fits hi, fun k hk => byteAt_storedRegs s hi hk, index_past_toNat hi, ?_,
    (KeepsAllBut.setMem s _).append (.setI _ _)⟩
  have hout := KeepsBytesOutside.writeBytes s s.i.toNat (s.regsUpTo x) (by rw [State.regsUpTo_length]; omega)
  rwa [State.regsUpTo_length] at hout

/-- Settles O39: the bytes loaded are read from `I` upward. -/
theorem loadRegistersThroughI : Obligations.LoadRegistersThroughI := by
  intro x
  refine ⟨encodedAs_ldRegs x, fun s hi => ?_⟩
  exact ⟨_, exec_ldRegs_fits hi, reg_loadedRegs s x, index_past_toNat hi, (KeepsAllBut.loadRegs s 0 _).append (.setI _ _)⟩

/-- Settles O40: the load reads the bytes that the store wrote. -/
theorem storeThenLoadRestoresRegisters : Obligations.StoreThenLoadRestoresRegisters := by
  intro x s t s' hi h hmem hi'
  cases (exec_stRegs_fits hi).symm.trans h
  refine ⟨_, exec_ldRegs_fits (hi' ▸ hi), fun k hk => ?_, index_past_toNat hi, ?_⟩
  · refine (reg_loadedRegs s' x k).trans ?_
    rw [if_pos hk, hi', hmem]
    exact byteAt_storedRegs s hi hk
  · rw [State.setI_i, hi', index_past_toNat hi]

/-- Settles O42: both bytes of the fetched word are stored registers. -/
theorem storedWordIsFetchedNext : Obligations.StoredWordIsFetchedNext := by
  intro x k k' s t hi h hk' hle hpc
  cases (exec_stRegs_fits hi).symm.trans h
  refine ⟨(State.canFetch_iff _).mpr (by omega), ?_⟩
  rw [State.fetchWord_toNat, hpc, Nat.add_assoc, ← hk', State.byteAt_setI, State.byteAt_setI,
    byteAt_storedRegs s hi (by omega), byteAt_storedRegs s hi hle]

/-- An access that reaches above 4095 takes its fault (R173). -/
theorem accessing_takesFault {i : Instr} {s d : State} {n w : Nat} (hw : EncodedAs i w) (hn : 1 ≤ n)
    (h : 4096 < s.i.toNat + n) :
    ∃ t, accessing i s n d = .next t ∧ TakesFault s t .dataBounds w s.i.toNat := by
  rw [accessing_faults hn h]
  exact raiseFrom_takesFault s _ hw rfl

theorem encodedAs_drw (x y n : Nibble) :
    EncodedAs (.drw x y n) (0xD000 + 256 * x.toNat + 16 * y.toNat + n.toNat) :=
  encodedAs_of_encode (by rw [show encode (.drw x y n) = formatXYN 0xD x y n from rfl, formatXYN_toNat]; simp; omega)

/-- Settles O41: each of the four goes through `accessing`. -/
theorem accessAboveMemoryTakesDataBounds : Obligations.AccessAboveMemoryTakesDataBounds := by
  intro s
  refine ⟨fun x h => ?ldB, fun x h => ⟨?stRegs, ?ldRegs⟩, fun x y n hn h => ?drw⟩
  case ldB => exact accessing_takesFault (encodedAs_ldB x) (by decide) (by omega)
  case stRegs => exact accessing_takesFault (encodedAs_stRegs x) (by omega) (by omega)
  case ldRegs => exact accessing_takesFault (encodedAs_ldRegs x) (by omega) (by omega)
  case drw => exact accessing_takesFault (encodedAs_drw x y n) hn (by omega)

end Sys2Proof.Machine

namespace Sys2Proof.Machine

/-! ## Drawing (44_display R151 to R153) -/

/-- The framebuffer with the sprite of `Dxyn` drawn on it, and the collision flag. -/
def State.drwCanvas (s : State) (x y n : Nibble) : Canvas :=
  drawRows (originCol s x) (s.mem.readBytes s.i.toNat n.toNat) (originRow s y) ⟨s.screen, false⟩

/-- The state after `Dxyn` has drawn. -/
def State.afterDrw (s : State) (x y n : Nibble) : State :=
  { s with screen := (s.drwCanvas x y n).screen }.setReg vf (flagByte (s.drwCanvas x y n).coll)

/-- The range check of R55 (b) passes for a sprite that is empty or lies in memory. -/
theorem exec_drw_fits {s : State} {x y n : Nibble} (h : n.toNat = 0 ∨ s.i.toNat + n.toNat - 1 ≤ 4095) :
    exec (.drw x y n) s = .next (s.afterDrw x y n) :=
  accessing_fits (by omega)

/-- The sprite that the compositor lays over a pixel is the one R151 and R152 describe. -/
theorem rowsOver_eq_spritePixel (s : State) (x y n : Nibble) (r c : Nat) :
    rowsOver (originCol s x) (s.mem.readBytes s.i.toNat n.toNat) (originRow s y) r c = spritePixel s x y n r c := by
  simp only [rowsOver, spritePixel, Memory.readBytes_length, originCol, originRow]
  rw [Bool.eq_iff_iff, Bool.and_eq_true, Bool.and_eq_true]
  refine and_congr_right fun h => ?_
  obtain ⟨hlow, hhigh, -⟩ := of_decide_eq_true h
  rw [Memory.readBytes_getD _ _ _ _ (by omega)]
  rfl

theorem pixel_afterDrw (s : State) (x y n : Nibble) (r c : Nat) :
    (s.afterDrw x y n).pixel r c = (s.pixel r c ^^ spritePixel s x y n r c) := by
  rw [← rowsOver_eq_spritePixel]
  exact litAt_drawRows _ _ _ _ r c

theorem coll_drwCanvas_iff (s : State) (x y n : Nibble) :
    (s.drwCanvas x y n).coll = true ↔ ∃ r c, s.pixel r c = true ∧ spritePixel s x y n r c = true := by
  rw [State.drwCanvas, coll_drawRows]
  simp [rowsOver_eq_spritePixel, State.pixel_eq_litAt, and_comm]

theorem reg_vf_afterDrw (s : State) (x y n : Nibble) :
    (s.afterDrw x y n).reg 0xF = flagByte (s.drwCanvas x y n).coll := State.reg_setReg_same _ vf _

theorem flagByte_eq_one_iff (f : Bool) : flagByte f = 1 ↔ f = true := by
  cases f <;> decide

/-- Settles O44: the compositor's laws, with its sprite read as `spritePixel`. -/
theorem drwXorsSpriteAndReportsCollision : Obligations.DrwXorsSpriteAndReportsCollision := by
  intro x y n
  refine ⟨encodedAs_drw x y n, fun s hfits => ?_⟩
  refine ⟨_, exec_drw_fits hfits, pixel_afterDrw s x y n, fun hlit => ?collides, fun hdark => ?misses, ?regs, ?frame⟩
  case collides => rw [reg_vf_afterDrw, (coll_drwCanvas_iff s x y n).mpr hlit]; rfl
  case misses =>
    have hcoll : (s.drwCanvas x y n).coll = false := by
      rw [← Bool.not_eq_true, coll_drwCanvas_iff]
      exact fun ⟨r, c, h⟩ => hdark r c h
    rw [reg_vf_afterDrw, hcoll]
    rfl
  case regs => exact KeepsRegsBut.setReg { s with screen := (s.drwCanvas x y n).screen } vf _
  case frame => exact ((KeepsAllBut.withScreen s _).append (.setReg _ vf _)).mono (by simp)

/-- The sprite depends on memory, `I` and the two registers alone. -/
theorem spritePixel_congr {s s' : State} {x y : Nibble} (n : Nibble) (hmem : Keeps s s' .mem) (hi : s'.i = s.i)
    (hx : s'.reg x = s.reg x) (hy : s'.reg y = s.reg y) (r c : Nat) :
    spritePixel s' x y n r c = spritePixel s x y n r c := by
  simp only [spritePixel, hi, hx, hy, hmem _]

/-- Settles O45: the second drawing XORs the same sprite again. -/
theorem drawingTwiceRestoresTheScreen : Obligations.DrawingTwiceRestoresTheScreen := by
  intro x y n s t s' hfits h hscreen hmem hi hx hy
  cases (exec_drw_fits hfits).symm.trans h
  have hsprite := spritePixel_congr n hmem hi hx hy
  refine ⟨_, exec_drw_fits (hi ▸ hfits), fun r c => ?pixels, ?collision⟩
  case pixels => rw [pixel_afterDrw, hscreen, pixel_afterDrw, hsprite, Bool.xor_assoc, Bool.xor_self, Bool.xor_false]
  case collision =>
    rw [reg_vf_afterDrw, flagByte_eq_one_iff, coll_drwCanvas_iff]
    simp only [hscreen _ _, hsprite, and_comm]

/-! ## Keypad and timers (45_keypad_and_timers R160 to R165) -/

theorem exec_skp (x : Nibble) (s : State) :
    exec (.skp x) s = withKey (.skp x) s (s.reg x) (s.skipIf (keyDown s.keys (s.reg x).toNat)) := rfl
theorem exec_sknp (x : Nibble) (s : State) :
    exec (.sknp x) s = withKey (.sknp x) s (s.reg x) (s.skipIf (!keyDown s.keys (s.reg x).toNat)) := rfl
theorem exec_ldVxDt (x : Nibble) (s : State) : exec (.ldVxDt x) s = .next (s.setReg x s.dt) := rfl
theorem exec_ldDtVx (x : Nibble) (s : State) : exec (.ldDtVx x) s = .next { s with dt := s.reg x } := rfl
theorem exec_ldStVx (x : Nibble) (s : State) : exec (.ldStVx x) s = .next { s with st := s.reg x } := rfl

theorem encodedAs_of_familyE {i : Instr} {x : Nibble} (kk : Byte) (h : encode i = formatXKK 0xE x kk) :
    EncodedAs i (0xE000 + kk.toNat + 256 * x.toNat) := by
  rw [Nat.add_right_comm]
  exact encodedAs_of_formatXKK 0xE h

theorem encodedAs_skp (x : Nibble) : EncodedAs (.skp x) (0xE09E + 256 * x.toNat) := encodedAs_of_familyE 0x9E rfl
theorem encodedAs_sknp (x : Nibble) : EncodedAs (.sknp x) (0xE0A1 + 256 * x.toNat) := encodedAs_of_familyE 0xA1 rfl

theorem withKey_of_le {i : Instr} {s d : State} {a : Byte} (h : a.toNat ≤ 15) : withKey i s a d = .next d :=
  if_neg (by omega)

theorem withKey_takesFault {i : Instr} {s d : State} {a : Byte} {w : Nat} (hw : EncodedAs i w) (h : 15 < a.toNat) :
    ∃ t, withKey i s a d = .next t ∧ TakesFault s t .keyIndex w a.toNat := by
  rw [withKey, if_pos h]
  exact raiseFrom_takesFault s _ hw (zextByte_toNat a)

/-- Settles O46: the key number passes the check of `withKey` and picks its latch. -/
theorem keySkips : Obligations.KeySkips := by
  intro x
  refine ⟨encodedAs_skp x, encodedAs_sknp x, fun s k hk => ?_⟩
  have hle : (s.reg x).toNat ≤ 15 := by omega
  have hdown : keyDown s.keys (s.reg x).toNat = s.keys[k] := by rw [hk, keyDown_eq]
  refine ⟨⟨_, (exec_skp x s).trans (withKey_of_le hle), ?_, .skipIf s _⟩,
    ⟨_, (exec_sknp x s).trans (withKey_of_le hle), ?_, .skipIf s _⟩⟩
  · rw [State.skipIf_pc, hdown]
  · rw [State.skipIf_pc, hdown]
    cases s.keys[k] <;> rfl

/-- Settles O47: both go through `withKey`. -/
theorem keyNumberAbove15TakesKeyIndex : Obligations.KeyNumberAbove15TakesKeyIndex := by
  intro x s h
  exact ⟨withKey_takesFault (encodedAs_skp x) h, withKey_takesFault (encodedAs_sknp x) h⟩

/-! ### The key wait, case by case (R162) -/

theorem exec_ldVxK_pressed (x : Nibble) {s : State} {k : Fin 16} (hk : s.keys[k] = true)
    (hhighest : ∀ j : Fin 16, k < j → s.keys[j] = false) :
    exec (.ldVxK x) s = .next (s.rewind.setKeyRecord (BitVec.ofNat 4 k.val) true) := by
  have hnum : (BitVec.ofNat 4 k.val).toNat = k.val := by simp
  rw [exec_ldVxK, scanKeys_highest _ k hk hhighest, if_neg]
  rw [released_iff, hnum, keyDown_eq, hk]
  simp

theorem exec_ldVxK_released (x : Nibble) {s : State} (hup : ∀ k : Fin 16, s.keys[k] = false)
    (hlive : s.lkPressed = true) :
    exec (.ldVxK x) s = .next ((s.setReg x (s.lkKey.setWidth 8)).setKeyRecord s.lkKey false) := by
  rw [exec_ldVxK, scanKeys_none _ hup, if_pos]
  rw [released_iff]
  exact ⟨hlive, (keyDown_eq s.keys ⟨_, s.lkKey.isLt⟩).trans (hup _)⟩

theorem exec_ldVxK_waiting (x : Nibble) {s : State} (hup : ∀ k : Fin 16, s.keys[k] = false)
    (hspent : s.lkPressed = false) :
    exec (.ldVxK x) s = .next (s.rewind.setKeyRecord s.lkKey s.lkPressed) := by
  rw [exec_ldVxK, scanKeys_none _ hup, if_neg]
  rw [released_iff, hspent]
  simp

/-- A key number as the byte that `Fx0A` writes. -/
theorem keyByte_toNat (k : Nibble) : (k.setWidth 8).toNat = k.toNat := by
  have := k.isLt
  rw [BitVec.toNat_setWidth]
  omega

/-- Settles O48: one clause per case of the key wait. -/
theorem keyWaitCompletesOnRelease : Obligations.KeyWaitCompletesOnRelease := by
  intro x
  refine ⟨encodedAs_of_familyF 0x0A rfl, fun s => ⟨fun k hk hhighest => ?pressed, fun hup hlive => ?released,
    fun hup hspent => ?waiting⟩⟩
  case pressed =>
    refine ⟨_, exec_ldVxK_pressed x hk hhighest, ?_, rfl, rfl, (KeepsAllBut.setPc s _).append (.setKeyRecord _ _ _)⟩
    exact Nat.mod_eq_of_lt k.isLt
  case released =>
    refine ⟨_, exec_ldVxK_released x hup hlive, ?_, rfl, rfl, .setReg s x _,
      (KeepsAllBut.setReg s x _).append (.setKeyRecord _ _ _)⟩
    rw [State.reg_setKeyRecord, State.reg_setReg_same, keyByte_toNat]
  case waiting =>
    exact ⟨_, exec_ldVxK_waiting x hup hspent, rfl, .setPc s _⟩

theorem State.rewind_advance (s : State) : s.advance.rewind = s := by
  show s.setPc (s.pc + 2 - 2) = s
  rw [BitVec.add_sub_cancel]
  rfl

/-- A step on `Fx0A` that sees keys down waits on the spot. -/
theorem step_keyWait_pressed {s : State} {x : Nibble} {k : Fin 16} (hs : s.fault = .success) (hpc : s.pc.toNat ≤ 0x0FFE)
    (hdecode : decode s.fetchWord = .ok (.ldVxK x)) (hk : s.keys[k] = true)
    (hhighest : ∀ j : Fin 16, k < j → s.keys[j] = false) :
    step s = .next ((s.setKeyRecord (BitVec.ofNat 4 k.val) true).report s.fetchWord) := by
  rw [step_decoded hs hpc hdecode, exec_ldVxK_pressed (s := s.advance) x hk hhighest, State.rewind_advance, reported_next]

/-- A step on `Fx0A` that sees all keys up spends a live record. -/
theorem step_keyWait_released {s : State} {x : Nibble} (hs : s.fault = .success) (hpc : s.pc.toNat ≤ 0x0FFE)
    (hdecode : decode s.fetchWord = .ok (.ldVxK x)) (hup : ∀ k : Fin 16, s.keys[k] = false) (hlive : s.lkPressed = true) :
    step s = .next
      (((s.advance.setReg x (s.lkKey.setWidth 8)).setKeyRecord s.lkKey false).report s.fetchWord) := by
  rw [step_decoded hs hpc hdecode, exec_ldVxK_released (s := s.advance) x hup hlive, reported_next]
  rfl

/-- Settles O49: the first step leaves `pc` where it was, so the second fetches the same word. -/
theorem pressThenReleaseEndsTheKeyWait : Obligations.PressThenReleaseEndsTheKeyWait := by
  intro s x k hs hpc hdecode hk hhighest
  have hup (j : Fin 16) : (Vector.replicate 16 false)[j] = false := by simp
  have hwait := (KeepsAllBut.setKeyRecord s (BitVec.ofNat 4 k.val) true).append (.report _ s.fetchWord)
  have hend := ((hwait.append (.setKeys _ (Vector.replicate 16 false))).append (.advance _)).append
    ((KeepsAllBut.setReg _ x ((BitVec.ofNat 4 k.val).setWidth 8)).append (.setKeyRecord _ (BitVec.ofNat 4 k.val) false))
  refine ⟨_, _, step_keyWait_pressed hs hpc hdecode hk hhighest, hwait, step_keyWait_released hs hpc hdecode hup rfl,
    ?key, rfl, rfl, ?regs, (hend.append (.report _ s.fetchWord)).mono (by simp)⟩
  case key =>
    refine (congrArg BitVec.toNat (State.reg_setReg_same _ x _)).trans ((keyByte_toNat _).trans ?_)
    exact Nat.mod_eq_of_lt k.isLt
  case regs => exact KeepsRegsBut.setReg s.advance x _

/-- Settles O50: one move each; the tone is that of the new `ST`. -/
theorem timerMoves : Obligations.TimerMoves := by
  intro x
  refine ⟨encodedAs_of_familyF 0x07 rfl, encodedAs_of_familyF 0x15 rfl, encodedAs_of_familyF 0x18 rfl,
    fun s => ⟨?_, ?_, ?_⟩⟩
  · exact ⟨_, exec_ldVxDt x s, s.reg_setReg_same x _, .setReg s x _, .setReg s x _⟩
  · exact ⟨_, exec_ldDtVx x s, rfl, .withDelay s _⟩
  · exact ⟨_, exec_ldStVx x s, rfl, State.tone_iff _, .withSound s _⟩

end Sys2Proof.Machine

namespace Sys2Proof.Machine

/-! ## The sound timer and the report are not read (10_state R28, 60_exceptions R182)

An instruction other than `Fx18` commutes with a change of the two, so that it has not looked at them. -/

/-- The sound timer and the report replaced. -/
def State.withSoundAndReport (s : State) (v : Byte) (o : Report) : State := { s with st := v, out := o }

/-- The update applied to the next state, where there is one. -/
def onNext (f : State → State) : Result → Result
  | .next s => .next (f s)
  | .fault r => .fault r
  | .refused r => .refused r

theorem onNext_ite (f : State → State) (c : Prop) [Decidable c] (a b : Result) :
    onNext f (if c then a else b) = if c then onNext f a else onNext f b := apply_ite (onNext f) c a b

theorem skipIf_withSoundAndReport (s : State) (v : Byte) (o : Report) (c : Bool) :
    (s.withSoundAndReport v o).skipIf c = (s.skipIf c).withSoundAndReport v o := by
  cases c <;> rfl

theorem loadRegs_withSoundAndReport (s : State) (v : Byte) (o : Report) (k : Nat) (bs : List Byte) :
    (s.withSoundAndReport v o).loadRegs k bs = (s.loadRegs k bs).withSoundAndReport v o := by
  induction bs generalizing s k with
  | nil => rfl
  | cons b bs ih => exact ih (s.setReg _ b) _

theorem accessing_withSoundAndReport (i : Instr) (s d : State) (n : Nat) (v : Byte) (o : Report) :
    accessing i (s.withSoundAndReport v o) n (d.withSoundAndReport v o) =
      onNext (·.withSoundAndReport v o) (accessing i s n d) := by
  unfold accessing
  rw [onNext_ite]
  rfl

theorem withKey_withSoundAndReport (i : Instr) (s d : State) (a : Byte) (v : Byte) (o : Report) :
    withKey i (s.withSoundAndReport v o) a (d.withSoundAndReport v o) =
      onNext (·.withSoundAndReport v o) (withKey i s a d) := by
  unfold withKey
  rw [onNext_ite]
  rfl

theorem exec_withSoundAndReport {i : Instr} (hi : .sound ∉ writesOf i) (s : State) (v : Byte) (o : Report) :
    exec i (s.withSoundAndReport v o) = onNext (·.withSoundAndReport v o) (exec i s) := by
  cases i with
  | seImm | sneImm | seReg | sneReg => exact congrArg _ (skipIf_withSoundAndReport s v o _)
  | skp x =>
    rw [exec_skp, exec_skp, skipIf_withSoundAndReport]
    exact withKey_withSoundAndReport ..
  | sknp x =>
    rw [exec_sknp, exec_sknp, skipIf_withSoundAndReport]
    exact withKey_withSoundAndReport ..
  | drw x y n => exact accessing_withSoundAndReport (.drw x y n) s (s.afterDrw x y n) _ v o
  | ldB x => exact accessing_withSoundAndReport (.ldB x) s (s.setMem _) _ v o
  | stRegs x =>
    rw [exec_stRegs, exec_stRegs]
    exact accessing_withSoundAndReport _ s ((s.setMem _).setI _) _ v o
  | ldRegs x =>
    rw [exec_ldRegs, exec_ldRegs, loadRegs_withSoundAndReport]
    exact accessing_withSoundAndReport _ _ (State.setI _ _) _ v o
  | ldVxK x =>
    rw [exec_ldVxK, exec_ldVxK, onNext_ite]
    rfl
  | ret =>
    by_cases h : s.sp.val = 0
    · rw [exec_ret_underflow h, exec_ret_underflow (s := s.withSoundAndReport v o) h]
      rfl
    · obtain ⟨k, hk⟩ := exists_top_entry h
      rw [exec_ret_pops hk, exec_ret_pops (s := s.withSoundAndReport v o) hk]
      rfl
  | call addr =>
    by_cases h : s.sp.val = 16
    · rw [exec_call_overflow addr h, exec_call_overflow (s := s.withSoundAndReport v o) addr h]
      rfl
    · obtain ⟨k, hk⟩ := exists_free_entry h
      rw [exec_call_pushes addr hk, exec_call_pushes (s := s.withSoundAndReport v o) addr hk]
      rfl
  | ldStVx x => simp [writesOf] at hi
  | _ => rfl

/-- In the two runs of an instruction the one difference is in `ST`, which both keep or both write. -/
theorem exec_sound_only {i : Instr} {s t : State} (h : exec i s = .next t) (v : Byte) (o : Report) :
    ∃ w, exec i (s.withSoundAndReport v o) = .next (t.withSoundAndReport w o) ∧
      ((w = v ∧ t.st = s.st) ∨ w = t.st) := by
  by_cases hi : .sound ∈ writesOf i
  · cases i with
    | ldStVx x =>
      cases h
      exact ⟨s.reg x, rfl, .inr rfl⟩
    | _ => simp [writesOf] at hi
  · refine ⟨v, ?_, .inl ⟨rfl, instructionsWriteOnlyTheirElements i s t h .sound hi⟩⟩
    rw [exec_withSoundAndReport hi, h]
    rfl

/-- Settles O52: the other run's next state is the first one's but for `ST`, since the report is made anew. -/
theorem noStepReadsTheSoundTimer : Obligations.NoStepReadsTheSoundTimer := by
  intro s t v o h
  suffices hstep : ∃ w, step (s.withSoundAndReport v o) = .next { t with st := w } ∧
      ((w = v ∧ t.st = s.st) ∨ w = t.st) by
    obtain ⟨w, hw, hst⟩ := hstep
    exact ⟨_, hw, .withSound t w, hst⟩
  rcases step_next h with ⟨hf, rfl⟩ | ⟨hs, hfetch, rfl⟩ | ⟨hs, hfetch, ⟨e, he⟩, rfl⟩ | ⟨hs, hfetch, i, u, hi, hexec, rfl⟩
  · exact ⟨v, step_latched (s := s.withSoundAndReport v o) hf, .inl ⟨rfl, rfl⟩⟩
  · have hpc := s.canFetch_eq_false_iff.mp hfetch
    exact ⟨v, step_unfetchable (s := s.withSoundAndReport v o) hs hpc, .inl ⟨rfl, rfl⟩⟩
  · have hpc := (State.canFetch_iff s).mp hfetch
    exact ⟨v, step_undecoded (s := s.withSoundAndReport v o) hs hpc he, .inl ⟨rfl, rfl⟩⟩
  · have hpc := (State.canFetch_iff s).mp hfetch
    obtain ⟨w, hw, hst⟩ := exec_sound_only hexec v o
    refine ⟨w, ?_, hst⟩
    exact (step_decoded (s := s.withSoundAndReport v o) hs hpc hi).trans (congrArg (reported _) hw)

end Sys2Proof.Machine
